-- ==== Sys2Proof/Word.lean ====
section
/-! DEFINITION. The 32-bit word of registers, memory cells and the pc, and its two readings (spec R6, R8). -/

namespace Sys2Proof

/-- A register, a memory cell or the pc: a 32-bit pattern (R6 `XLEN`, `CELL`, `PCW`). Bit 0 is the least significant (R7). -/
abbrev Word := BitVec 32

/-- The signed reading of a word, in `-2^31 .. 2^31-1` (R8). -/
abbrev s32 (v : Word) : Int := v.toInt

/-- The unsigned reading of a word, in `0 .. 2^32-1` (R8). -/
abbrev u32 (v : Word) : Nat := v.toNat

/-- The pattern stored when an integer `k` is written to a 32-bit place: `k mod 2^32` (R8). -/
abbrev wrap32 (k : Int) : Word := BitVec.ofInt 32 k

end Sys2Proof
end

