-- ==== Sys2Proof/Syntax.lean ====
section
/-! DEFINITION. The instructions as syntax: one constructor for each row of spec/opcode_table.json (spec R62, R63, R64, R68). -/

namespace Sys2Proof

/-- A register index: "An instruction names a register by a 3-bit index" (R21). -/
abbrev RegIdx := Fin 8

/-- The decoded instruction. Every constructor carries the three fields `a0`, `a1`, `a2` that `decode` returns (R63), those that
the instruction does not use too: an instruction that does not use a field still carries it (R61). -/
inductive Instr where
  /-- Opcode 0, R100: sources `a0`, `a1`, destination `a2`. -/
  | add (a0 a1 a2 : RegIdx)
  /-- Opcode 1, R101: sources `a0`, `a1`, destination `a2`. -/
  | nor (a0 a1 a2 : RegIdx)
  /-- Opcode 2, R110: base `a0`, destination `a1`, signed displacement `a2`. -/
  | lw (a0 a1 : RegIdx) (a2 : Int)
  /-- Opcode 3, R111: base `a0`, register stored `a1`, signed displacement `a2`. -/
  | sw (a0 a1 : RegIdx) (a2 : Int)
  /-- Opcode 4, R120: registers compared `a0`, `a1`, signed displacement `a2`. -/
  | beq (a0 a1 : RegIdx) (a2 : Int)
  /-- Opcode 5, R121: target `a0`, link `a1`; `a2` is unused. -/
  | jalr (a0 a1 : RegIdx) (a2 : Nat)
  /-- Opcode 6, R130: all fields unused. -/
  | halt (a0 a1 : RegIdx) (a2 : Nat)
  /-- Opcode 7, R131: all fields unused. -/
  | noop (a0 a1 : RegIdx) (a2 : Nat)
deriving DecidableEq, Repr

end Sys2Proof
end

