-- ==== Sys2Proof/WellFormed.lean ====
section
/-! DEFINITION. The field bounds an instruction must meet to have an encoding (spec R66, R67), and the narrower form that the
Assembler emits (spec R66, R84). Register indices are in bounds by their type. -/

namespace Sys2Proof

/-- A displacement that fits the signed 16-bit field: `-32768 .. 32767` (R66). -/
def dispInBounds (d : Int) : Bool := decide (-32768 ≤ d) && decide (d ≤ 32767)

/-- The third field of an instruction that does not use it: any 16-bit pattern, `0 .. 65535` (R67). -/
def unusedInBounds (a2 : Nat) : Bool := decide (a2 ≤ 65535)

/-- The bounds under which the round trip of R67 holds. -/
def Instr.wellFormed : Instr → Bool
  | .add _ _ _ => true
  | .nor _ _ _ => true
  | .lw _ _ a2 => dispInBounds a2
  | .sw _ _ a2 => dispInBounds a2
  | .beq _ _ a2 => dispInBounds a2
  | .jalr _ _ a2 => unusedInBounds a2
  | .halt _ _ a2 => unusedInBounds a2
  | .noop _ _ a2 => unusedInBounds a2

/-- What the Assembler supplies: in bounds, and 0 in every field that the instruction does not use (R66, R84). -/
def Instr.assemblerForm : Instr → Bool
  | .add _ _ _ => true
  | .nor _ _ _ => true
  | .lw _ _ a2 => dispInBounds a2
  | .sw _ _ a2 => dispInBounds a2
  | .beq _ _ a2 => dispInBounds a2
  | .jalr _ _ a2 => decide (a2 = 0)
  | .halt a0 a1 a2 => decide (a0 = 0 ∧ a1 = 0 ∧ a2 = 0)
  | .noop a0 a1 a2 => decide (a0 = 0 ∧ a1 = 0 ∧ a2 = 0)

end Sys2Proof
end

