-- ==== Sys2Proof/Decode.lean ====
section
/-! DEFINITION. WordCodec (spec R34, R35, R60 to R73): `decode`, total on every 32-bit cell, and the encoder. -/

namespace Sys2Proof

/-- Why a cell does not decode (R34 `cause`, R69, R70). -/
inductive DecodeFault where
  /-- Bits 31:23 exceed 7 (R69). -/
  | opcodeOutOfRange
  /-- `add` or `nor` with a third field above 7 (R70). -/
  | fieldOutOfRange
deriving DecidableEq, Repr

/-- `sext_16`: `v - 2^16` if `v >= 2^15`, else `v` (R8). -/
def sext16 (v : Nat) : Int := if v ≥ 2 ^ 15 then (v : Int) - 2 ^ 16 else v

/-- `w[31:23]`, everything from bit 23 up, unmasked: 0 .. 511 (R63, D2). -/
def oprOf (w : Word) : Nat := u32 w >>> 23

/-- `w[21:19]` (R60). -/
def a0Of (w : Word) : RegIdx := Fin.ofNat 8 (u32 w >>> 19)

/-- `w[18:16]` (R60). -/
def a1Of (w : Word) : RegIdx := Fin.ofNat 8 (u32 w >>> 16)

/-- `w[15:0]`: 0 .. 65535 (R60). -/
def rawOf (w : Word) : Nat := u32 w % 2 ^ 16

/-- The destination of a register-only opcode: the third field must be 0 .. 7 (R63, R70, D4). -/
def withDestination (raw : Nat) (mk : RegIdx → Instr) : Except DecodeFault Instr :=
  if raw > 7 then .error .fieldOutOfRange else .ok (mk (Fin.ofNat 8 raw))

/-- `decode` (R63): one cell to an instruction or a decode fault. Bit 22 is not looked at (R71). -/
def decode (w : Word) : Except DecodeFault Instr :=
  match oprOf w with
  | 0 => withDestination (rawOf w) (Instr.add (a0Of w) (a1Of w))
  | 1 => withDestination (rawOf w) (Instr.nor (a0Of w) (a1Of w))
  | 2 => .ok (.lw (a0Of w) (a1Of w) (sext16 (rawOf w)))
  | 3 => .ok (.sw (a0Of w) (a1Of w) (sext16 (rawOf w)))
  | 4 => .ok (.beq (a0Of w) (a1Of w) (sext16 (rawOf w)))
  | 5 => .ok (.jalr (a0Of w) (a1Of w) (rawOf w))
  | 6 => .ok (.halt (a0Of w) (a1Of w) (rawOf w))
  | 7 => .ok (.noop (a0Of w) (a1Of w) (rawOf w))
  | _ => .error .opcodeOutOfRange

/-! ## The encoder -/

/-- WordCodec's tuple `(opcode, a0, a1, a2)` (R34, R35), whose numbers may be out of bounds, as a malformed source line gives them. -/
structure Fields where
  /-- The operation. -/
  opcode : Int
  /-- The first field. -/
  a0 : Int
  /-- The second field. -/
  a1 : Int
  /-- The third field as interpreted: signed for opcodes 2, 3, 4, unsigned for the others (R34). -/
  a2 : Int
deriving DecidableEq, Repr

/-- The tuple of a decoded instruction: the decoder's output ports (R34), with the opcode numbers of R68. -/
def Instr.fields : Instr → Fields
  | .add a0 a1 a2 => ⟨0, a0.val, a1.val, a2.val⟩
  | .nor a0 a1 a2 => ⟨1, a0.val, a1.val, a2.val⟩
  | .lw a0 a1 a2 => ⟨2, a0.val, a1.val, a2⟩
  | .sw a0 a1 a2 => ⟨3, a0.val, a1.val, a2⟩
  | .beq a0 a1 a2 => ⟨4, a0.val, a1.val, a2⟩
  | .jalr a0 a1 a2 => ⟨5, a0.val, a1.val, a2⟩
  | .halt a0 a1 a2 => ⟨6, a0.val, a1.val, a2⟩
  | .noop a0 a1 a2 => ⟨7, a0.val, a1.val, a2⟩

/-- `lo <= k <= hi`. -/
def within (lo hi k : Int) : Bool := decide (lo ≤ k) && decide (k ≤ hi)

/-- The bounds of the third field, by opcode (R66; for opcodes 5, 6, 7 the 16 bits of R67; log 7). -/
def thirdInBounds (opcode a2 : Int) : Bool :=
  if opcode ≤ 1 then within 0 7 a2
  else if opcode ≤ 4 then within (-32768) 32767 a2
  else within 0 65535 a2

/-- The field bounds `encode` requires (R66). -/
def Fields.inBounds (f : Fields) : Bool :=
  within 0 7 f.opcode && within 0 7 f.a0 && within 0 7 f.a1 && thirdInBounds f.opcode f.a2

/-- The encoding formula `(opcode << 23) | (a0 << 19) | (a1 << 16) | (a2 mod 2^16)` (R60, R65). -/
def Fields.pack (f : Fields) : Word :=
  BitVec.ofNat 32
    ((f.opcode.toNat <<< 23) ||| (f.a0.toNat <<< 19) ||| (f.a1.toNat <<< 16) ||| (f.a2 % 2 ^ 16).toNat)

/-- WordCodec `encode` on a tuple (R35, R65): outside the bounds of R66 it is not defined. -/
def Fields.encode (f : Fields) : Option Word := if f.inBounds then some f.pack else none

/-- The cell of a well-formed instruction (R65). -/
def encode (i : Instr) : Word := i.fields.pack

/-! ## The host's way in -/

/-- The instruction the decoder reads from a word of the opcode table's numbering: one cell, so its bits are the cell's bits; a word
that does not fit one cell is none of this machine's (R61). -/
def decodeTableWord (nbits w : Nat) : Option Instr :=
  if w % 2 ^ nbits < 2 ^ 32 then (decode (BitVec.ofNat 32 (w % 2 ^ nbits))).toOption else none

end Sys2Proof
end

