-- ==== Sys2Proof/Config.lean ====
section
/-! DEFINITION. The parameters fixed before the first step (spec R6, R32): the address bound `MEM_LIMIT` and the loaded image, whose
length is `N`. -/

namespace Sys2Proof

/-- "Not state, but parameters fixed before the first step: the image length `N`; the address bound `MEM_LIMIT`; the image's initial
contents" (R32). The model keeps them as one value that no step changes (DESIGN CHOICE, log 2). -/
structure Config where
  /-- `MEM_LIMIT`, the number of valid word addresses (R6, R42; OPEN in the spec). -/
  memLimit : Nat
  /-- The loaded image, address 0 first (R172). -/
  image : List Word
deriving DecidableEq, Repr

/-- `N`, "length of the loaded program image in words" (R6). -/
abbrev Config.codeLen (c : Config) : Nat := c.image.length

/-- The spec's constraint on the parameters: `0 <= N <= MEM_LIMIT <= 2^31` (R6, R42). -/
abbrev Config.wf (c : Config) : Prop := c.codeLen ≤ c.memLimit ∧ c.memLimit ≤ 2 ^ 31

/-- The parameters of `State.reset`: `MEM_LIMIT` at the value R6 suggests, `2^31`, and nothing loaded (DESIGN CHOICE, log 2 and log 5). -/
def Config.default : Config := { memLimit := 2 ^ 31, image := [] }

end Sys2Proof
end

