-- ==== Sys2Proof/Machine/State.lean ====
section
/-! DEFINITION. The state of the Machine (spec R20), as plain data, and the state right after reset (spec R33, R170). -/

namespace Sys2Proof.Machine

/-- The causes of a fault (R141). -/
inductive FaultCause where
  /-- Code 1, raised at decode by any fetched cell (R142). -/
  | opcodeOutOfRange
  /-- Code 2, raised at decode by `add`, `nor` (R143). -/
  | fieldOutOfRange
  /-- Code 3, raised at fetch (R144). -/
  | fetchAddressInvalid
  /-- Code 4, raised at execute by `lw`, `sw` (R145). -/
  | dataAddressInvalid
deriving DecidableEq, Repr

/-- The kinds that group the causes (R140, R141). -/
inductive FaultKind where
  /-- "opcode/field out of range during decode". -/
  | encodingFault
  /-- Address anomalies met while running. -/
  | runtimeFault
deriving DecidableEq, Repr

/-- The memory's cells, keyed by absolute word address: addresses strictly rising, no cell equal to what an unlisted address reads as.
The cell is the spec's smallest unit and is never split into bytes (R46; log 1). -/
abbrev Memory := List (Nat × Word)

/-- What an unlisted address reads as: "reads past both regions return 0" (R44), and the cells a growth makes are 0 (R45). -/
def Memory.unlisted : Word := 0

/-- The canonical form of a memory. -/
abbrev Memory.wf (m : Memory) : Prop := m.Pairwise (fun c d => c.1 < d.1) ∧ ∀ c ∈ m, c.2 ≠ Memory.unlisted

/-- The complete architectural state (R20), and the parameters it runs under (R32). -/
structure State where
  /-- `x[0..7]`, the general registers (R21). -/
  x : Vector Word 8
  /-- The program counter, a word address (R24, R25). -/
  pc : Word
  /-- The halt flag: false is Running, true is Halted (R26). -/
  halted : Bool
  /-- The fault status: `none` is the code 0 (R27, R141). -/
  fault : Option FaultCause
  /-- `code[0..N-1]` at the addresses below `N` (R29), `stack[a - N]` at the addresses from `N` up (R30, R43). -/
  mem : Memory
  /-- `stack_len`, the current length of the stack region (R30). -/
  stackLen : Nat
  /-- `MEM_LIMIT` and the loaded image (R32); no step changes it. -/
  config : Config
deriving DecidableEq, Repr

/-- Why the MODEL would stop without a next state. It has no constructor: every fault of this hardware has an entry that the spec
describes (R146: `fault` and `halted` are written and nothing else changes), so it is a next state, and a halted machine answers a
step request with its unchanged state (R90); log 3, log 4. Nothing raises it; safe. -/
inductive Fault where
deriving DecidableEq, Repr

/-- Why the model has no meaning for an instruction. -/
inductive Refusal where
  /-- Raised by an arm of `exec` that has no meaning yet (at present by none); safe, since nothing can be proved of what follows. -/
  | notModelled (mnemonic : String)
deriving DecidableEq, Repr

/-- The machine right after reset (R33, R170), with nothing loaded and `MEM_LIMIT` at the suggested value (log 2, log 5). -/
def State.reset : State :=
  { x := Vector.replicate 8 0
    pc := 0
    halted := false
    fault := none
    mem := []
    stackLen := 0
    config := Config.default }

end Sys2Proof.Machine
end

