-- ==== Sys2Proof/Machine/Flags.lean ====
section
/-! DEFINITION. The two status values of the Machine: the halt flag, the only flag (spec R26), and the fault status with its codes and
kinds (spec R27, R140, R141). No instruction has any other flag effect. -/

namespace Sys2Proof.Machine

/-- The code of a cause (R141). -/
def FaultCause.code : FaultCause → BitVec 3
  | .opcodeOutOfRange => 1
  | .fieldOutOfRange => 2
  | .fetchAddressInvalid => 3
  | .dataAddressInvalid => 4

/-- The kind of a cause (R140, R141). -/
def FaultCause.kind : FaultCause → FaultKind
  | .opcodeOutOfRange => .encodingFault
  | .fieldOutOfRange => .encodingFault
  | .fetchAddressInvalid => .runtimeFault
  | .dataAddressInvalid => .runtimeFault

/-- The cause that a decode fault raises (R92, R142, R143). -/
def causeOfDecodeFault : DecodeFault → FaultCause
  | .opcodeOutOfRange => .opcodeOutOfRange
  | .fieldOutOfRange => .fieldOutOfRange

/-- The 3-bit fault status as the host reads it: 0 is no fault (R27). -/
def State.faultCode (s : State) : BitVec 3 :=
  match s.fault with
  | none => 0
  | some c => c.code

/-- `halted <- 1` (R9). -/
def State.setHalted (s : State) : State := { s with halted := true }

end Sys2Proof.Machine
end

