-- ==== Sys2Proof/Machine/Operands.lean ====
section
/-! DEFINITION. What the operand forms compute, and which registers an instruction reads and writes (spec R23, R25, R56, R100 to R102).
Arithmetic is on integers and narrowed once, by `wrap32`, where the spec writes it. -/

namespace Sys2Proof.Machine

/-- `add`: the low 32 bits of the exact sum (R100). -/
def aluAdd (u v : Word) : Word := wrap32 (s32 u + s32 v)

/-- `nor`: bit i is 1 exactly when bit i of both sources is 0 (R101). -/
def aluNor (u v : Word) : Word := ~~~(u ||| v)

/-- The effective address of `lw`, `sw`: an exact integer, no wrap (R56). -/
def effectiveAddress (base : Word) (disp : Int) : Int := s32 base + disp

/-- `pc + 1`: the address of the next instruction, the link value of `jalr` and the common increment (R25, R94, R121). -/
def nextPc (pc : Word) : Word := wrap32 (s32 pc + 1)

/-- What a taken `beq` leaves in the pc before the common increment (R120). -/
def branchPc (pc : Word) (disp : Int) : Word := wrap32 (s32 pc + disp)

/-- What `jalr` leaves in the pc before the common increment (R121). -/
def jumpPc (target : Word) : Word := wrap32 (s32 target - 1)

/-- The registers an instruction reads (R23). -/
def regsRead : Instr → List RegIdx
  | .add a0 a1 _ => [a0, a1]
  | .nor a0 a1 _ => [a0, a1]
  | .lw a0 _ _ => [a0]
  | .sw a0 a1 _ => [a0, a1]
  | .beq a0 a1 _ => [a0, a1]
  | .jalr a0 _ _ => [a0]
  | .halt _ _ _ => []
  | .noop _ _ _ => []

/-- The register an instruction writes (R23). -/
def regWritten : Instr → Option RegIdx
  | .add _ _ a2 => some a2
  | .nor _ _ a2 => some a2
  | .lw _ a1 _ => some a1
  | .sw _ _ _ => none
  | .beq _ _ _ => none
  | .jalr _ a1 _ => some a1
  | .halt _ _ _ => none
  | .noop _ _ _ => none

end Sys2Proof.Machine
end

