-- ==== Sys2Proof/Machine/Ops.lean ====
section
/-! DEFINITION. The named operations every meaning is built from: registers (spec R9, R22), memory (spec R42 to R45), the common
increment (spec R94), fault entry (spec R146), fetch and decode (spec R91, R92). There is no return from a fault: "There is no
return-from-trap instruction and nothing to return to" (spec R150). -/

namespace Sys2Proof.Machine

/-! ## Registers -/

/-- `x[i]` (R9). No register is hard-wired (R22). -/
def State.readReg (s : State) (i : RegIdx) : Word := s.x[i]

/-- `x[i] <- v` (R9); a write to register 0 persists like any other (R22). -/
def State.writeReg (s : State) (i : RegIdx) (v : Word) : State := { s with x := s.x.set i v }

/-! ## Memory cells -/

/-- The cell at address `a` of a memory. -/
def Memory.read : Memory → Nat → Word
  | [], _ => Memory.unlisted
  | (b, w) :: m, a => if b = a then w else Memory.read m a

/-- Places the cell `(a, v)` among cells with rising addresses, none of them `a`. -/
def Memory.insert (a : Nat) (v : Word) : Memory → Memory
  | [] => [(a, v)]
  | (b, w) :: m => if b < a then (b, w) :: Memory.insert a v m else (a, v) :: (b, w) :: m

/-- Sets the cell at address `a` to `v`; a cell equal to what an unlisted address reads as is not listed. -/
def Memory.write (m : Memory) (a : Nat) (v : Word) : Memory :=
  if v = Memory.unlisted then m.filter (fun c => c.1 != a) else Memory.insert a v (m.filter (fun c => c.1 != a))

/-- Sets every cell at the addresses `lo .. hi` to 0: the zero-fill loop of R45. -/
def Memory.zeroFill (m : Memory) (lo hi : Nat) : Memory := m.filter (fun c => decide (c.1 < lo) || decide (hi < c.1))

/-! ## The access primitives -/

/-- `N`, the length of the code/data region (R6, R29). -/
abbrev State.codeLen (s : State) : Nat := s.config.codeLen

/-- `ValidAddr(a) := (0 <= a) and (a < MEM_LIMIT)` (R42). -/
abbrev State.ValidAddr (s : State) (a : Int) : Prop := 0 ≤ a ∧ a < s.config.memLimit

/-- `MemRead(a, 1)` (R44): a code cell, a stack cell, or 0 beyond both. It changes no state. -/
def State.memRead (s : State) (a : Nat) : Word :=
  if a < s.codeLen then Memory.read s.mem a
  else if a - s.codeLen < s.stackLen then Memory.read s.mem a
  else Memory.unlisted

/-- `MemWrite(a, 1, v)` (R45): in place below `N` and inside the stack region; beyond it the stack grows to `a - N + 1` cells, the new
ones zero-filled. -/
def State.memWrite (s : State) (a : Nat) (v : Word) : State :=
  if a < s.codeLen then { s with mem := Memory.write s.mem a v }
  else if a - s.codeLen < s.stackLen then { s with mem := Memory.write s.mem a v }
  else
    { s with
      mem := Memory.write (Memory.zeroFill s.mem (s.codeLen + s.stackLen) a) a v
      stackLen := a - s.codeLen + 1 }

/-! ## The end of a step -/

/-- `pc <- wrap32(pc + 1)`, after the effect of every opcode (R94). -/
def State.advance (s : State) : State := { s with pc := nextPc s.pc }

/-- Fault entry, `raise <cause>` (R146): `fault <- code`, `halted <- 1`, nothing else changes, and the step ends. -/
def State.raise (s : State) (c : FaultCause) : State := { s with fault := some c, halted := true }

/-- A step request on a halted machine "changes nothing" (R90). -/
def State.stepHalted (s : State) : State := s

/-! ## Fetch and decode -/

/-- The fetch phase (R91): the cell at the pc through `MemRead`, or `FetchAddressInvalid`. -/
def State.fetch (s : State) : Except FaultCause Word :=
  if s.ValidAddr (s32 s.pc) then .ok (s.memRead (s32 s.pc).toNat) else .error .fetchAddressInvalid

/-- The fetch and decode phases (R91, R92), the first fault met winning (R147). -/
def State.fetchDecode (s : State) : Except FaultCause Instr :=
  match s.fetch with
  | .error c => .error c
  | .ok w =>
    match decode w with
    | .error d => .error (causeOfDecodeFault d)
    | .ok i => .ok i

/-! ## Data accesses -/

/-- The data-access part of the execute phase (R56, R110, R111): the address is checked before memory is touched, and a bad one raises
`DataAddressInvalid`. -/
def State.accessing (s : State) (ea : Int) (effect : Nat → State) : State :=
  if s.ValidAddr ea then effect ea.toNat else s.raise .dataAddressInvalid

end Sys2Proof.Machine
end

