-- ==== Sys2Proof/Machine/Arithmetic.lean ====
section
/-! DEFINITION. The arithmetic and logic instructions, `add` and `nor` (spec/41_arithmetic.md). -/

namespace Sys2Proof.Machine

/-- `add a0 a1 a2` (R100): both sources are read before the destination is written; overflow wraps. -/
def execAdd (a0 a1 a2 : RegIdx) (s : State) : Host.Outcome State Fault Refusal :=
  .next (s.writeReg a2 (aluAdd (s.readReg a0) (s.readReg a1))).advance

/-- `nor a0 a1 a2` (R101): bitwise over all 32 bits. -/
def execNor (a0 a1 a2 : RegIdx) (s : State) : Host.Outcome State Fault Refusal :=
  .next (s.writeReg a2 (aluNor (s.readReg a0) (s.readReg a1))).advance

end Sys2Proof.Machine
end

