-- ==== Sys2Proof/Machine/Control.lean ====
section
/-! DEFINITION. The control-transfer instructions, `beq` and `jalr` (spec/43_control_transfer.md). Neither checks its target: a bad one
faults at the next fetch (spec R122). -/

namespace Sys2Proof.Machine

/-- `beq a0 a1 a2` (R120): equality of the two 32-bit patterns. -/
def execBeq (a0 a1 : RegIdx) (a2 : Int) (s : State) : Host.Outcome State Fault Refusal :=
  .next (if s.readReg a0 = s.readReg a1 then { s with pc := branchPc s.pc a2 } else s).advance

/-- The link write of `jalr`, its first statement (R121). -/
def State.link (s : State) (a1 : RegIdx) : State := s.writeReg a1 (nextPc s.pc)

/-- `jalr a0 a1` (R121): the target is read AFTER the link write. -/
def execJalr (a0 a1 : RegIdx) (s : State) : Host.Outcome State Fault Refusal :=
  .next ({ s.link a1 with pc := jumpPc ((s.link a1).readReg a0) } : State).advance

end Sys2Proof.Machine
end

