-- ==== Sys2Proof/Machine/LoadStore.lean ====
section
/-! DEFINITION. The load and store instructions, `lw` and `sw` (spec/42_load_store.md). -/

namespace Sys2Proof.Machine

/-- `lw a0 a1 a2` (R110): the base is read before the destination is written; a read never grows the stack. -/
def execLw (a0 a1 : RegIdx) (a2 : Int) (s : State) : Host.Outcome State Fault Refusal :=
  .next (s.accessing (effectiveAddress (s.readReg a0) a2) fun ea => (s.writeReg a1 (s.memRead ea)).advance)

/-- `sw a0 a1 a2` (R111): one whole register to one cell. -/
def execSw (a0 a1 : RegIdx) (a2 : Int) (s : State) : Host.Outcome State Fault Refusal :=
  .next (s.accessing (effectiveAddress (s.readReg a0) a2) fun ea => (s.memWrite ea (s.readReg a1)).advance)

end Sys2Proof.Machine
end

