-- ==== Sys2Proof/Machine/System.lean ====
section
/-! DEFINITION. The system instructions, `halt` and `noop` (spec/44_system.md). -/

namespace Sys2Proof.Machine

/-- `halt` (R130): `halted <- 1`, and the common increment still happens. -/
def execHalt (s : State) : Host.Outcome State Fault Refusal := .next s.setHalted.advance

/-- `noop` (R131): only the common increment. -/
def execNoop (s : State) : Host.Outcome State Fault Refusal := .next s.advance

end Sys2Proof.Machine
end

