-- ==== Sys2Proof/Machine/Dispatch.lean ====
section
/-! DEFINITION. The execute phase: exactly one of the eight effects, selected by the opcode, then the increment (spec R93, R94). -/

namespace Sys2Proof.Machine

def exec (i : Instr) (s : State) : Host.Outcome State Fault Refusal :=
  match i with
  | .add a0 a1 a2 => Sys2Proof.Machine.execAdd a0 a1 a2 s
  | .nor a0 a1 a2 => Sys2Proof.Machine.execNor a0 a1 a2 s
  | .lw a0 a1 a2 => Sys2Proof.Machine.execLw a0 a1 a2 s
  | .sw a0 a1 a2 => Sys2Proof.Machine.execSw a0 a1 a2 s
  | .beq a0 a1 a2 => Sys2Proof.Machine.execBeq a0 a1 a2 s
  | .jalr a0 a1 _ => Sys2Proof.Machine.execJalr a0 a1 s
  | .halt _ _ _ => Sys2Proof.Machine.execHalt s
  | .noop _ _ _ => Sys2Proof.Machine.execNoop s

end Sys2Proof.Machine
end

