-- ==== Sys2Proof/Machine/Step.lean ====
section
/-! DEFINITION. One step of the Machine (spec R90), and placing an instruction where the next step fetches. -/

namespace Sys2Proof.Machine

/-- `step` (R90): fetch, decode, execute, increment; a fault of fetch or decode is entered and ends the step. A step request on a halted
machine changes nothing. -/
def step (s : State) : Host.Outcome State Fault Refusal :=
  if s.halted then .next s.stepHalted
  else
    match s.fetchDecode with
    | .error c => .next (s.raise c)
    | .ok i => exec i s

/-- `s` running, with the instruction's cell stored at its pc: it stands for the host's load of a program and the reset after it (log 5). Where the pc is no valid
address nothing can be fetched and no cell is stored. -/
def State.withFetchWord (s : State) (nbits w : Nat) : State :=
  let running : State := { s with halted := false, fault := none }
  if s.ValidAddr (s32 s.pc) then running.memWrite (s32 s.pc).toNat (BitVec.ofNat 32 (w % 2 ^ nbits)) else running

end Sys2Proof.Machine
end

