-- ==== Sys2Proof/Machine/Assembler.lean ====
section
/-! DEFINITION. The toolchain interface (spec R4, R74, R78 to R88): source lines, symbols, branch displacement, and the program image
the hardware is loaded with. Nothing in the Machine depends on it (R4). Linker directives, file lookup and module order are software
outside the spec's scope (R5, R87): the modules come here in layout order. The points that R78 to R89 leave open and this file settles
are marked in log 9 and log 11. -/

namespace Sys2Proof.Assembler

/-- An operand: a number or a label (R80, R82). -/
inductive Operand where
  /-- A decimal number. -/
  | num (k : Int)
  /-- A label. -/
  | sym (name : String)
deriving DecidableEq, Repr

/-- A code line (R78, R79). -/
structure CodeLine where
  /-- The label field, if not empty. -/
  label : Option String
  /-- The mnemonic. -/
  mnemonic : String
  /-- The operands, in source order. -/
  operands : List Operand
deriving DecidableEq, Repr

/-- A `.fill` line (R74, R85). -/
structure DataLine where
  /-- The label field, if not empty. -/
  label : Option String
  /-- The number or label it holds. -/
  value : Operand
deriving DecidableEq, Repr

/-- A module, its lines "split into `codeLines` (all non-`.fill` lines) and `dataLines` (all `.fill` lines)" (R85). -/
structure Module where
  /-- The code lines, in source order. -/
  code : List CodeLine
  /-- The `.fill` lines, in source order. -/
  data : List DataLine
deriving DecidableEq, Repr

/-- One line of the resolved program: the label that stays attached (R81) and the cell. -/
structure ResolvedLine where
  /-- The label that remains attached to the emitted line. -/
  label : Option String
  /-- The cell. -/
  cell : Word
deriving DecidableEq, Repr

/-! ## Resolution and image layout -/

/-- A label that may enter a symbol table: "entirely alphabetic" (R81). -/
def eligible (name : String) : Bool := !name.toList.isEmpty && name.toList.all Char.isAlpha

/-- A module's symbol table: names and absolute addresses (R81). -/
abbrev Symbols := List (String × Nat)

/-- The eligible labels of lines at consecutive addresses from `base` up (R81). -/
def labelsFrom (base : Nat) : List (Option String) → Symbols
  | [] => []
  | none :: ls => labelsFrom (base + 1) ls
  | some n :: ls => if eligible n then (n, base) :: labelsFrom (base + 1) ls else labelsFrom (base + 1) ls

/-- A module's private symbol table (R81): its code labels, then its data labels. The Linker's `Stack` label is not entered, so an
operand that names it is refused unless the module defines that label itself: how a module names it is left open (R175,
91_not_in_source.md N14, 93_implementation_defined.md U13; DESIGN CHOICE, log 11). -/
def Module.symbols (m : Module) (codeBase dataBase : Nat) : Symbols :=
  labelsFrom codeBase (m.code.map (·.label)) ++ labelsFrom dataBase (m.data.map (·.label))

/-- The address of a label; an unknown label, or one defined twice (DESIGN CHOICE, log 9), has none (R82, R89). -/
def Symbols.find (t : Symbols) (name : String) : Option Nat :=
  match t.filter (fun e => e.1 == name) with
  | [e] => some e.2
  | _ => none

/-- An operand's absolute value: a number itself, a label its address (R82, R85). -/
def Operand.absolute (t : Symbols) : Operand → Option Int
  | .num k => some k
  | .sym n => (Symbols.find t n).map Int.ofNat

/-- `target - (branch_address + 1)` (R83). -/
def branchDisplacement (target branchAddress : Nat) : Int := target - (branchAddress + 1)

/-- A `beq`'s third operand: a label gives the displacement to it, a number is the displacement itself (R83, D29). -/
def Operand.displacement (t : Symbols) (branchAddress : Nat) : Operand → Option Int
  | .num k => some k
  | .sym n => (Symbols.find t n).map fun target => branchDisplacement target branchAddress

/-- The fields of a code line at an address (R79, R82, R83, R84); a wrong mnemonic or operand count has none (R89). -/
def CodeLine.fields (l : CodeLine) (t : Symbols) (address : Nat) : Option Fields :=
  match l.mnemonic, l.operands with
  | "add", [.num a0, .num a1, o] => (o.absolute t).map (Fields.mk 0 a0 a1)
  | "nor", [.num a0, .num a1, o] => (o.absolute t).map (Fields.mk 1 a0 a1)
  | "lw", [.num a0, .num a1, o] => (o.absolute t).map (Fields.mk 2 a0 a1)
  | "sw", [.num a0, .num a1, o] => (o.absolute t).map (Fields.mk 3 a0 a1)
  | "beq", [.num a0, .num a1, o] => (o.displacement t address).map (Fields.mk 4 a0 a1)
  | "jalr", [.num a0, .num a1] => some ⟨5, a0, a1, 0⟩
  | "halt", [] => some ⟨6, 0, 0, 0⟩
  | "noop", [] => some ⟨7, 0, 0, 0⟩
  | _, _ => none

/-- "a label whose first character is uppercase remains attached to its emitted line"; a local label is stripped (R81), and so is
one that begins with no letter (DESIGN CHOICE, log 9). -/
def emittedLabel : Option String → Option String
  | none => none
  | some n =>
    match n.toList with
    | c :: _ => if c.isUpper then some n else none
    | [] => none

/-- A code line to its cell: fields out of bounds are refused (R66, R88). -/
def CodeLine.assemble (t : Symbols) (address : Nat) (l : CodeLine) : Option ResolvedLine :=
  ((l.fields t address).bind Fields.encode).map (ResolvedLine.mk (emittedLabel l.label))

/-- A `.fill` line to its cell: the literal itself, a signed 32-bit value, no opcode packing (R74, R85). -/
def DataLine.assemble (t : Symbols) (l : DataLine) : Option ResolvedLine :=
  (l.value.absolute t).bind fun k =>
    if within (-2 ^ 31) (2 ^ 31 - 1) k then some ⟨emittedLabel l.label, wrap32 k⟩ else none

/-- Code lines at consecutive addresses from `base` up. -/
def assembleCode (t : Symbols) (base : Nat) : List CodeLine → Option (List ResolvedLine)
  | [] => some []
  | l :: ls =>
    match l.assemble t base, assembleCode t (base + 1) ls with
    | some r, some rs => some (r :: rs)
    | _, _ => none

/-- Data lines, in order. -/
def assembleData (t : Symbols) : List DataLine → Option (List ResolvedLine)
  | [] => some []
  | l :: ls =>
    match l.assemble t, assembleData t ls with
    | some r, some rs => some (r :: rs)
    | _, _ => none

/-- "every module's code lines": modules in layout order, code from `codeBase`, data from `dataBase` (R81, R88). -/
def linkCode (codeBase dataBase : Nat) : List Module → Option (List ResolvedLine)
  | [] => some []
  | m :: ms =>
    match assembleCode (m.symbols codeBase dataBase) codeBase m.code,
      linkCode (codeBase + m.code.length) (dataBase + m.data.length) ms with
    | some rs, some rest => some (rs ++ rest)
    | _, _ => none

/-- "then every module's data lines" (R88). -/
def linkData (codeBase dataBase : Nat) : List Module → Option (List ResolvedLine)
  | [] => some []
  | m :: ms =>
    match assembleData (m.symbols codeBase dataBase) m.data,
      linkData (codeBase + m.code.length) (dataBase + m.data.length) ms with
    | some rs, some rest => some (rs ++ rest)
    | _, _ => none

/-- The total number of code lines, `C` (R49). -/
def codeLines (ms : List Module) : Nat := (ms.map fun m => m.code.length).sum

/-- The total number of `.fill` lines of the modules. -/
def fillLines (ms : List Module) : Nat := (ms.map fun m => m.data.length).sum

/-- "then one trailing `.fill 0` line labeled for the stack boundary" (R88). -/
def stackLine : ResolvedLine := ⟨some "Stack", 0⟩

/-- The resolved program of the modules in layout order (R88); none where a line is refused: "assembly either fully succeeds or the run
does not start" (R89). It is the Linker's, with the `Stack` line; the standalone path is not modelled (N13, log 11). -/
def link (ms : List Module) : Option (List ResolvedLine) :=
  match linkCode 0 (codeLines ms) ms, linkData 0 (codeLines ms) ms with
  | some code, some data => some (code ++ data ++ [stackLine])
  | _, _ => none

/-- The image to load: line `k` becomes `code[k]` (R88). -/
def image (ms : List Module) : Option (List Word) := (link ms).map fun ls => ls.map (·.cell)

/-! ## Source text -/

/-- The pieces of a text between separators. -/
def pieces (sep : Char) : List Char → List (List Char)
  | [] => [[]]
  | c :: cs =>
    if c = sep then [] :: pieces sep cs
    else
      match pieces sep cs with
      | [] => [[c]]
      | p :: ps => (c :: p) :: ps

/-- Decimal digits to a number (R80). -/
def digits (cs : List Char) : Option Nat :=
  if cs.isEmpty then none
  else if cs.all Char.isDigit then some (cs.foldl (fun n c => 10 * n + (c.toNat - '0'.toNat)) 0) else none

/-- A decimal integer with an optional leading `-` (R80, D28). -/
def number : List Char → Option Int
  | '-' :: ds => (digits ds).map fun n => -(n : Int)
  | ds => (digits ds).map Int.ofNat

/-- An operand field: a number, or an eligible label (R80, R81). -/
def operand (cs : List Char) : Option Operand :=
  match number cs with
  | some k => some (.num k)
  | none => if eligible (String.ofList cs) then some (.sym (String.ofList cs)) else none

/-- Operand fields, all of which must parse. -/
def operands : List (List Char) → Option (List Operand)
  | [] => some []
  | f :: fs =>
    match operand f, operands fs with
    | some o, some os => some (o :: os)
    | _, _ => none

/-- The label field: empty is no label (R78). -/
def labelField (cs : List Char) : Option String := if cs.isEmpty then none else some (String.ofList cs)

/-- A source line (R78). -/
inductive SourceLine where
  /-- An instruction. -/
  | code (l : CodeLine)
  /-- A `.fill` directive. -/
  | data (l : DataLine)
  /-- A Linker directive, beginning with `#` (R87). -/
  | directive (text : String)
deriving DecidableEq, Repr

/-- One tab-separated line (R78). Absent trailing operands may leave their empty fields behind; any other field after the mnemonic is an
operand, so that text after the last operand makes one too many, or one that is none, and the line is refused: R78 gives no rule for it
(91_not_in_source.md N12; DESIGN CHOICE, log 9). -/
def sourceLine : List Char → Option SourceLine
  | '#' :: cs => some (.directive (String.ofList ('#' :: cs)))
  | cs =>
    match pieces '\t' cs with
    | l :: m :: fs =>
      match operands (fs.reverse.dropWhile List.isEmpty).reverse with
      | none => none
      | some os =>
        if m = ".fill".toList then
          match os with
          | [v] => some (.data ⟨labelField l, v⟩)
          | _ => none
        else some (.code ⟨labelField l, String.ofList m, os⟩)
    | _ => none

/-- Lines into a module (R85); a directive is left to the Linker. -/
def gather : List (List Char) → Option Module
  | [] => some ⟨[], []⟩
  | l :: ls =>
    match sourceLine l, gather ls with
    | some (.code c), some m => some { m with code := c :: m.code }
    | some (.data d), some m => some { m with data := d :: m.data }
    | some (.directive _), some m => some m
    | _, _ => none

/-- A module's source text: one line each, the trailing newline required (R78). The empty text, which R78 does not name, is a module with no
lines (DESIGN CHOICE, log 9). -/
def parseModule (text : String) : Option Module :=
  match (pieces '\n' text.toList).reverse with
  | [] :: ls => gather ls.reverse
  | _ => none

end Sys2Proof.Assembler
end

