-- ==== Sys2Proof/Machine/Hosting.lean ====
section
/-! DEFINITION. The host's operations on the Machine, each performed only between steps (spec R37, R172 to R178): load, reset, the
harness preset, run, dump. -/

namespace Sys2Proof.Machine

/-- The cells of an image placed from address `a` up (R172: "address 0 first"). -/
def Memory.ofCells (a : Nat) : List Word → Memory
  | [] => []
  | w :: ws => if w = Memory.unlisted then Memory.ofCells (a + 1) ws else (a, w) :: Memory.ofCells (a + 1) ws

/-- The machine right after reset with these parameters (R33, R170): registers, pc, flag and fault status cleared, the stack region
empty, the code/data region the image as it was loaded. -/
def State.resetWith (c : Config) : State :=
  { x := Vector.replicate 8 0
    pc := 0
    halted := false
    fault := none
    mem := Memory.ofCells 0 c.image
    stackLen := 0
    config := c }

/-- `reset`: "Nothing survives it except the loaded image and the parameters" (R171). -/
def State.hostReset (s : State) : State := State.resetWith s.config

/-- `load(image)`: sets `N` and `code[]` (R172); an image longer than `MEM_LIMIT` is not loadable. The stack region is left empty
(DESIGN CHOICE, log 5). The host calls it before reset, never during a run (R178). -/
def State.load (s : State) (image : List Word) : Option State :=
  if image.length ≤ s.config.memLimit then
    some { s with mem := Memory.ofCells 0 image, stackLen := 0, config := { s.config with image := image } }
  else none

/-- The test harness's register preset, before the first step (R176). -/
def State.preset (s : State) (x : Vector Word 8) : State := { s with x := x }

/-- `run` (R96): step until halted. The fuel is the executor's, not the machine's: `none` is "out of fuel", never a final state (log 10). -/
def State.run : Nat → State → Option State
  | 0, s => if s.halted then some s else none
  | n + 1, s =>
    if s.halted then some s
    else
      match step s with
      | .next t => State.run n t
      | .fault _ => none
      | .refused _ => none

/-- What `dump` shows: the registers, then every code/data word, then every stack word (R160, R177), and the status the host sees (R37). -/
structure Dump where
  /-- `x[0..7]`. -/
  regs : List Word
  /-- `code[0..N-1]`. -/
  code : List Word
  /-- `stack[0..stack_len-1]`. -/
  stack : List Word
  /-- The program counter. -/
  pc : Word
  /-- The halt flag. -/
  halted : Bool
  /-- The fault status code. -/
  fault : BitVec 3
deriving DecidableEq, Repr

/-- `dump` reads the whole state and changes nothing (R177). -/
def State.dump (s : State) : Dump :=
  { regs := s.x.toList
    code := (List.range s.codeLen).map s.memRead
    stack := (List.range s.stackLen).map fun j => s.memRead (s.codeLen + j)
    pc := s.pc
    halted := s.halted
    fault := s.faultCode }

end Sys2Proof.Machine
end

