-- ==== Sys2Proof/Safety.lean ====
section
/-! DEFINITION. What claims are made of: the invariant of the reachable states, the ends of a run (spec R97, R133, R162), and the words
in which frames are said. -/

namespace Sys2Proof.Machine

/-- `k` requested steps, one after another, as the host's core runs them (R37 `step`, R159). -/
def State.steps (k : Nat) (s : State) : Host.Outcome State Fault Refusal := Host.Core.run Sys2Proof.core k s

/-- What holds of every state a run reaches: the parameters are in their bounds (R6, R42); memory is in its canonical form, lists nothing
beyond the stack region, and the stack region fits the address space (R20, R30); a fault status implies Halted (R27, R162). States outside it: log 8. -/
def State.Inv (s : State) : Prop :=
  s.config.wf ∧ Memory.wf s.mem ∧ (∀ c ∈ s.mem, c.1 < s.codeLen + s.stackLen) ∧
    s.codeLen + s.stackLen ≤ s.config.memLimit ∧ (s.fault ≠ none → s.halted = true)

/-- "The run ended normally exactly when `halted = 1 and fault = 0`" (R27). -/
def State.EndedNormally (s : State) : Prop := s.halted = true ∧ s.fault = none

/-- "It ended abnormally when `fault != 0`" (R97). -/
def State.EndedAbnormally (s : State) : Prop := s.halted = true ∧ s.fault ≠ none

/-- Running: a further step exists (R162). -/
def State.Running (s : State) : Prop := s.halted = false ∧ s.fault = none

/-- Every cell of memory reads the same in both states, the stack region has the same length, and the parameters are the same. -/
def State.SameMemory (s t : State) : Prop :=
  (∀ a : Nat, t.memRead a = s.memRead a) ∧ t.stackLen = s.stackLen ∧ t.config = s.config

/-- The halt flag and the fault status are the same in both states. -/
def State.SameStatus (s t : State) : Prop := t.halted = s.halted ∧ t.fault = s.fault

/-- Every register is the same in both states. -/
def State.SameRegs (s t : State) : Prop := ∀ r : RegIdx, t.readReg r = s.readReg r

/-- Every register but `d` is the same in both states. -/
def State.SameRegsExcept (d : RegIdx) (s t : State) : Prop := ∀ r : RegIdx, r ≠ d → t.readReg r = s.readReg r

/-- The two states agree in everything but the general registers. -/
def State.SameButRegs (s t : State) : Prop :=
  t.pc = s.pc ∧ t.halted = s.halted ∧ t.fault = s.fault ∧ t.mem = s.mem ∧ t.stackLen = s.stackLen ∧ t.config = s.config

/-- The two states agree in everything but the length of the stack region. -/
def State.SameButStackLen (s t : State) : Prop :=
  t.x = s.x ∧ t.pc = s.pc ∧ t.halted = s.halted ∧ t.fault = s.fault ∧ t.mem = s.mem ∧ t.config = s.config

end Sys2Proof.Machine
end

