-- ==== Sys2Proof/Certificates/Slice0/Obligations.lean ====
section
/-! DEFINITION. The statements for the provers. Each docstring names the rules of spec/ it formalises, or says which log entry a clause
rests on. In every `exec` clause `s` is any state and the operands are any operands, the ill-formed ones too. -/

open Sys2Proof Sys2Proof.Machine

/-! ## Encoding -/

/-- R67, whole: the round trip for every instruction in bounds, with every operand value the encoding admits; and the converse, which
holds exactly when bit 22 of the cell is 0. -/
def Obligations.DecodeEncodeRoundTrip : Prop :=
  (∀ i : Instr, i.wellFormed = true → decode (encode i) = .ok i) ∧
    ∀ (w : Word) (i : Instr), decode w = .ok i → (encode i = w ↔ w.getLsbD 22 = false)

/-- Whatever decodes (R63) is in the field bounds, so that the round trip of R67 applies to it. For the third field of opcodes 5, 6, 7, where
R66 lists 0, the bounds are any 16 bits: the model's reading of R67 (log 7, DEDUCED). -/
def Obligations.DecodedInstructionsAreInBounds : Prop :=
  ∀ (w : Word) (i : Instr), decode w = .ok i → i.wellFormed = true ∧ i.fields.inBounds = true

/-- WordCodec's tuples (R65, R66, R67): `encode` is defined exactly within the field bounds (for the unused third field of opcodes 5, 6, 7
any 16 bits, log 7), gives the sum of the fields at their places, and its cell decodes back to the tuple. -/
def Obligations.EncoderAcceptsExactlyTheBounds : Prop :=
  ∀ f : Fields,
    (f.encode = none ↔ ¬ ((0 ≤ f.opcode ∧ f.opcode ≤ 7) ∧ (0 ≤ f.a0 ∧ f.a0 ≤ 7) ∧ (0 ≤ f.a1 ∧ f.a1 ≤ 7) ∧
      (f.opcode ≤ 1 → 0 ≤ f.a2 ∧ f.a2 ≤ 7) ∧ (2 ≤ f.opcode ∧ f.opcode ≤ 4 → -32768 ≤ f.a2 ∧ f.a2 ≤ 32767) ∧
      (5 ≤ f.opcode → 0 ≤ f.a2 ∧ f.a2 ≤ 65535))) ∧
    ∀ w : Word, f.encode = some w →
      (u32 w : Int) = f.opcode * 2 ^ 23 + f.a0 * 2 ^ 19 + f.a1 * 2 ^ 16 + f.a2 % 2 ^ 16 ∧
      ∃ i : Instr, decode w = .ok i ∧ i.fields = f

/-- R68, R69, R70: the opcode table's match and mask for each row, with the fields where its pattern places them; a cell with any of bits
31:26 set is `OpcodeOutOfRange`; an `add` or `nor` with any of bits 15:3 set is `FieldOutOfRange`; no other cell is a decode fault. -/
def Obligations.DecodeFollowsTheOpcodeTable : Prop :=
  ∀ w : Word,
    let a0 : RegIdx := (w.extractLsb' 19 3).toFin
    let a1 : RegIdx := (w.extractLsb' 16 3).toFin
    (w &&& 0xFF80FFF8#32 = 0x00000000#32 → decode w = .ok (.add a0 a1 (w.extractLsb' 0 3).toFin)) ∧
    (w &&& 0xFF80FFF8#32 = 0x00800000#32 → decode w = .ok (.nor a0 a1 (w.extractLsb' 0 3).toFin)) ∧
    (w &&& 0xFF800000#32 = 0x01000000#32 → decode w = .ok (.lw a0 a1 (w.extractLsb' 0 16).toInt)) ∧
    (w &&& 0xFF800000#32 = 0x01800000#32 → decode w = .ok (.sw a0 a1 (w.extractLsb' 0 16).toInt)) ∧
    (w &&& 0xFF800000#32 = 0x02000000#32 → decode w = .ok (.beq a0 a1 (w.extractLsb' 0 16).toInt)) ∧
    (w &&& 0xFF800000#32 = 0x02800000#32 → decode w = .ok (.jalr a0 a1 (w.extractLsb' 0 16).toNat)) ∧
    (w &&& 0xFF800000#32 = 0x03000000#32 → decode w = .ok (.halt a0 a1 (w.extractLsb' 0 16).toNat)) ∧
    (w &&& 0xFF800000#32 = 0x03800000#32 → decode w = .ok (.noop a0 a1 (w.extractLsb' 0 16).toNat)) ∧
    (decode w = .error .opcodeOutOfRange ↔ w &&& 0xFC000000#32 ≠ 0) ∧
    (decode w = .error .fieldOutOfRange ↔ w &&& 0xFF000000#32 = 0 ∧ w &&& 0x0000FFF8#32 ≠ 0)

/-- R71: bit 22 of any cell, bits 15:0 of a `jalr` and bits 22:0 of a `halt` or `noop` select nothing. `encode` writes bit 22 as 0 for every
well-formed instruction, and the other ignored bits as 0 for what the Assembler supplies (R66): the model's `encode` writes any other
value that it is given for an unused field (log 7, DEDUCED). -/
def Obligations.IgnoredBitsSelectNothing : Prop :=
  (∀ w : Word, decode (w ^^^ 0x00400000#32) = decode w) ∧
  (∀ w v : Word, w &&& 0xFF800000#32 = 0x02800000#32 → w &&& 0xFFBF0000#32 = v &&& 0xFFBF0000#32 →
    ∃ i j : Instr, decode w = .ok i ∧ decode v = .ok j ∧ ∀ s : State, exec i s = exec j s) ∧
  (∀ w v : Word, (w &&& 0xFF800000#32 = 0x03000000#32 ∨ w &&& 0xFF800000#32 = 0x03800000#32) →
    w &&& 0xFF800000#32 = v &&& 0xFF800000#32 →
    ∃ i j : Instr, decode w = .ok i ∧ decode v = .ok j ∧ ∀ s : State, exec i s = exec j s) ∧
  (∀ i : Instr, i.wellFormed = true → encode i &&& 0x00400000#32 = 0) ∧
  (∀ i : Instr, i.assemblerForm = true → i.wellFormed = true ∧
    (encode i &&& 0xFF800000#32 = 0x02800000#32 → encode i &&& 0x0000FFFF#32 = 0) ∧
    (encode i &&& 0xFF800000#32 = 0x03000000#32 ∨ encode i &&& 0xFF800000#32 = 0x03800000#32 →
      encode i &&& 0x003FFFFF#32 = 0))

/-- Sanity: cells written out by hand in spec/95_test_vectors.md, tables E and K, decode to what those tables say. -/
def Obligations.TabledCellsDecode : Prop :=
  decode 0x00010002#32 = .ok (.add 0 1 2) ∧ decode 0x00890002#32 = .ok (.nor 1 1 2) ∧
  decode 0x012BFFFF#32 = .ok (.lw 5 3 (-1)) ∧ decode 0x01BF7FFF#32 = .ok (.sw 7 7 32767) ∧
  decode 0x021C8001#32 = .ok (.beq 3 4 (-32767)) ∧ decode 0x02B70000#32 = .ok (.jalr 6 7 0) ∧
  decode 0x037FFFFF#32 = .ok (.halt 7 7 65535) ∧ decode 0x03800000#32 = .ok (.noop 0 0 0) ∧
  decode 0x00000008#32 = .error .fieldOutOfRange ∧ decode 0x04000008#32 = .error .opcodeOutOfRange

/-- R72: a cell `0 .. 7` is `add 0 0 <value>`, which doubles `x[0]` into `x[value]`, a cell `8 .. 65535` is a field fault, and a running machine whose pc is at an unwritten
address beyond the image executes `add 0 0 0`, which leaves `x[0] = 0` when it was 0. -/
def Obligations.DataThatDecodes : Prop :=
  (∀ v : RegIdx, decode (BitVec.ofNat 32 v.val) = .ok (.add 0 0 v) ∧
    ∀ s : State, ∃ t, exec (.add 0 0 v) s = .next t ∧ t.readReg v = s.readReg 0 + s.readReg 0) ∧
  (∀ v : Nat, 8 ≤ v → v ≤ 65535 → decode (BitVec.ofNat 32 v) = .error .fieldOutOfRange) ∧
  (∀ s : State, s.halted = false → s.ValidAddr (s32 s.pc) → (s.codeLen + s.stackLen : Int) ≤ s32 s.pc →
    ∃ t, step s = .next t ∧ t.readReg 0 = s.readReg 0 + s.readReg 0 ∧ s.SameRegsExcept 0 t ∧ t.pc = s.pc + 1 ∧
      s.SameStatus t ∧ s.SameMemory t)

/-! ## The instructions: result, completion and frame -/

/-- R100, whole: the encoding both ways; the result is the exact sum wrapped to 32 bits, for every choice of registers, register 0 and a
destination among the sources too; nothing else changes but the pc; a third field above 7 is a fault at decode and writes nothing. -/
def Obligations.AddWritesTheWrappedSum : Prop :=
  (∀ (a0 a1 a2 : RegIdx) (s : State),
    u32 (encode (.add a0 a1 a2)) = 0 * 2 ^ 23 + a0.val * 2 ^ 19 + a1.val * 2 ^ 16 + a2.val ∧
    decode (encode (.add a0 a1 a2)) = .ok (.add a0 a1 a2) ∧
    ∃ t, exec (.add a0 a1 a2) s = .next t ∧
      s32 (t.readReg a2) = (s32 (s.readReg a0) + s32 (s.readReg a1)).bmod (2 ^ 32) ∧
      s.SameRegsExcept a2 t ∧ t.pc = s.pc + 1 ∧ s.SameStatus t ∧ s.SameMemory t) ∧
  ∀ (w : Word) (s : State), u32 w / 2 ^ 23 = 0 → 7 < u32 w % 2 ^ 16 → s.halted = false → s.ValidAddr (s32 s.pc) →
    s.memRead (s32 s.pc).toNat = w → step s = .next { s with fault := some .fieldOutOfRange, halted := true }

/-- R101, whole: the encoding both ways; bit `k` of the result is 1 exactly when bit `k` of both sources is 0; frame and decode fault as
for `add`. -/
def Obligations.NorIsBitwiseOverThirtyTwoBits : Prop :=
  (∀ (a0 a1 a2 : RegIdx) (s : State),
    u32 (encode (.nor a0 a1 a2)) = 1 * 2 ^ 23 + a0.val * 2 ^ 19 + a1.val * 2 ^ 16 + a2.val ∧
    decode (encode (.nor a0 a1 a2)) = .ok (.nor a0 a1 a2) ∧
    ∃ t, exec (.nor a0 a1 a2) s = .next t ∧
      (∀ k, k < 32 → ((t.readReg a2).getLsbD k = true ↔
        (s.readReg a0).getLsbD k = false ∧ (s.readReg a1).getLsbD k = false)) ∧
      s.SameRegsExcept a2 t ∧ t.pc = s.pc + 1 ∧ s.SameStatus t ∧ s.SameMemory t) ∧
  ∀ (w : Word) (s : State), u32 w / 2 ^ 23 = 1 → 7 < u32 w % 2 ^ 16 → s.halted = false → s.ValidAddr (s32 s.pc) →
    s.memRead (s32 s.pc).toNat = w → step s = .next { s with fault := some .fieldOutOfRange, halted := true }

/-- R110, whole: the encoding both ways for every displacement in bounds; at a valid effective address the destination receives the cell
there, 0 beyond both regions, and no memory changes; at an invalid one `DataAddressInvalid` is entered and nothing else changes. -/
def Obligations.LwLoadsTheAddressedCell : Prop :=
  ∀ (a0 a1 : RegIdx) (a2 : Int) (s : State),
    let ea : Int := s32 (s.readReg a0) + a2
    (-32768 ≤ a2 → a2 ≤ 32767 →
      u32 (encode (.lw a0 a1 a2)) = 2 * 2 ^ 23 + a0.val * 2 ^ 19 + a1.val * 2 ^ 16 + (a2 % 2 ^ 16).toNat ∧
      decode (encode (.lw a0 a1 a2)) = .ok (.lw a0 a1 a2)) ∧
    (0 ≤ ea ∧ ea < s.config.memLimit →
      ∃ t, exec (.lw a0 a1 a2) s = .next t ∧ t.readReg a1 = s.memRead ea.toNat ∧
        ((s.codeLen + s.stackLen : Int) ≤ ea → t.readReg a1 = 0) ∧
        s.SameRegsExcept a1 t ∧ t.pc = s.pc + 1 ∧ s.SameStatus t ∧ s.SameMemory t) ∧
    (¬ (0 ≤ ea ∧ ea < s.config.memLimit) →
      exec (.lw a0 a1 a2) s = .next { s with fault := some .dataAddressInvalid, halted := true })

/-- R111, whole: the encoding both ways for every displacement in bounds; at a valid effective address that one cell becomes the whole
register, every other cell reads as before, the cells a growth makes read 0, and the stack region grows exactly as far as needed; no
register changes; at an invalid address `DataAddressInvalid` is entered and nothing else changes. -/
def Obligations.SwStoresOneCellAndGrowsTheStack : Prop :=
  ∀ (a0 a1 : RegIdx) (a2 : Int) (s : State),
    let ea : Int := s32 (s.readReg a0) + a2
    (-32768 ≤ a2 → a2 ≤ 32767 →
      u32 (encode (.sw a0 a1 a2)) = 3 * 2 ^ 23 + a0.val * 2 ^ 19 + a1.val * 2 ^ 16 + (a2 % 2 ^ 16).toNat ∧
      decode (encode (.sw a0 a1 a2)) = .ok (.sw a0 a1 a2)) ∧
    (0 ≤ ea ∧ ea < s.config.memLimit →
      ∃ t, exec (.sw a0 a1 a2) s = .next t ∧ t.memRead ea.toNat = s.readReg a1 ∧
        (∀ a : Nat, (a : Int) ≠ ea → t.memRead a = s.memRead a) ∧
        (∀ a : Nat, s.codeLen + s.stackLen ≤ a → (a : Int) ≠ ea → t.memRead a = 0) ∧
        ((s.codeLen + s.stackLen : Int) ≤ ea → (t.stackLen : Int) = ea - s.codeLen + 1) ∧
        (ea < (s.codeLen + s.stackLen : Int) → t.stackLen = s.stackLen) ∧
        t.config = s.config ∧ s.SameRegs t ∧ t.pc = s.pc + 1 ∧ s.SameStatus t) ∧
    (¬ (0 ≤ ea ∧ ea < s.config.memLimit) →
      exec (.sw a0 a1 a2) s = .next { s with fault := some .dataAddressInvalid, halted := true })

/-- R120, whole: the encoding both ways for every displacement in bounds; the pc is `p + 1 + a2` (modulo 2^32) when the two patterns are
equal and `p + 1` otherwise; nothing else changes, the target is not checked, and a bad target faults at the very next fetch. -/
def Obligations.BeqBranchesOnEqualPatterns : Prop :=
  ∀ (a0 a1 : RegIdx) (a2 : Int) (s : State),
    (-32768 ≤ a2 → a2 ≤ 32767 →
      u32 (encode (.beq a0 a1 a2)) = 4 * 2 ^ 23 + a0.val * 2 ^ 19 + a1.val * 2 ^ 16 + (a2 % 2 ^ 16).toNat ∧
      decode (encode (.beq a0 a1 a2)) = .ok (.beq a0 a1 a2)) ∧
    ∃ t, exec (.beq a0 a1 a2) s = .next t ∧
      (s.readReg a0 = s.readReg a1 → s32 t.pc = (s32 s.pc + 1 + a2).bmod (2 ^ 32)) ∧
      (s.readReg a0 ≠ s.readReg a1 → s32 t.pc = (s32 s.pc + 1).bmod (2 ^ 32)) ∧
      s.SameRegs t ∧ s.SameStatus t ∧ s.SameMemory t ∧
      (s.halted = false → ¬ t.ValidAddr (s32 t.pc) →
        step t = .next { t with fault := some .fetchAddressInvalid, halted := true })

/-- R121, whole: the encoding both ways; the link register receives `p + 1` first, and the pc is the value `x[a0]` holds after that: the
old `x[a0]` when the registers differ, `p + 1` when they are the same; nothing else changes, the third field selects nothing, and a bad
target faults at the very next fetch. -/
def Obligations.JalrLinksThenJumps : Prop :=
  ∀ (a0 a1 : RegIdx) (a2 : Nat) (s : State),
    u32 (encode (.jalr a0 a1 0)) = 5 * 2 ^ 23 + a0.val * 2 ^ 19 + a1.val * 2 ^ 16 ∧
    (a2 ≤ 65535 → decode (encode (.jalr a0 a1 a2)) = .ok (.jalr a0 a1 a2)) ∧
    ∃ t, exec (.jalr a0 a1 a2) s = .next t ∧ exec (.jalr a0 a1 0) s = .next t ∧
      t.readReg a1 = s.pc + 1 ∧ s.SameRegsExcept a1 t ∧
      (a0 ≠ a1 → t.pc = s.readReg a0) ∧ (a0 = a1 → t.pc = s.pc + 1) ∧ s.SameStatus t ∧ s.SameMemory t ∧
      (s.halted = false → ¬ t.ValidAddr (s32 t.pc) →
        step t = .next { t with fault := some .fetchAddressInvalid, halted := true })

/-- R130: the canonical cell, and any cell with bits 31:23 = 6 is a `halt`; it sets the halt flag, still increments the pc, and changes
nothing else, whatever its fields hold. A step request on the state it leaves answers the same state, which is the model's reading of R90
(log 4, DEDUCED). -/
def Obligations.HaltStopsOnePastItself : Prop :=
  encode (.halt 0 0 0) = 0x03000000#32 ∧
  (∀ w : Word, u32 w / 2 ^ 23 = 6 → ∃ (a0 a1 : RegIdx) (a2 : Nat), decode w = .ok (.halt a0 a1 a2)) ∧
  ∀ (a0 a1 : RegIdx) (a2 : Nat) (s : State),
    ∃ t, exec (.halt a0 a1 a2) s = .next t ∧ t.halted = true ∧ t.fault = s.fault ∧ t.pc = s.pc + 1 ∧
      s.SameRegs t ∧ s.SameMemory t ∧ step t = .next t

/-- R131: the canonical cell, and any cell with bits 31:23 = 7 is a `noop`; it increments the pc and changes nothing else, whatever its
fields hold; it is not the all-zero cell. -/
def Obligations.NoopOnlyAdvances : Prop :=
  encode (.noop 0 0 0) = 0x03800000#32 ∧ decode 0#32 = .ok (.add 0 0 0) ∧
  (∀ w : Word, u32 w / 2 ^ 23 = 7 → ∃ (a0 a1 : RegIdx) (a2 : Nat), decode w = .ok (.noop a0 a1 a2)) ∧
  ∀ (a0 a1 : RegIdx) (a2 : Nat) (s : State),
    ∃ t, exec (.noop a0 a1 a2) s = .next t ∧ t.pc = s.pc + 1 ∧ s.SameRegs t ∧ s.SameStatus t ∧ s.SameMemory t

/-- R56: the effective address is never wrapped. It lies in `-2^31 - 32768 .. 2^31 + 32766`, and wherever the exact sum leaves
`0 .. 2^31 - 1`, `lw` and `sw` fault, under every allowed `MEM_LIMIT`. -/
def Obligations.EffectiveAddressNeverWraps : Prop :=
  ∀ (a0 a1 : RegIdx) (a2 : Int) (s : State), s.config.wf → -32768 ≤ a2 → a2 ≤ 32767 →
    effectiveAddress (s.readReg a0) a2 = s32 (s.readReg a0) + a2 ∧
    -2 ^ 31 - 32768 ≤ effectiveAddress (s.readReg a0) a2 ∧ effectiveAddress (s.readReg a0) a2 ≤ 2 ^ 31 + 32766 ∧
    (¬ (0 ≤ s32 (s.readReg a0) + a2 ∧ s32 (s.readReg a0) + a2 < 2 ^ 31) →
      exec (.lw a0 a1 a2) s = .next { s with fault := some .dataAddressInvalid, halted := true } ∧
      exec (.sw a0 a1 a2) s = .next { s with fault := some .dataAddressInvalid, halted := true })

/-! ## The step -/

/-- R90: a step of a running machine faults at an invalid pc, faults where the cell fetched does not decode, and otherwise is the decoded
instruction's execution, its increment included; a step request on a halted machine changes nothing. -/
def Obligations.StepRunsTheDecodedInstruction : Prop :=
  ∀ s : State,
    (s.halted = true → step s = .next s) ∧
    (s.halted = false → ¬ (0 ≤ s32 s.pc ∧ s32 s.pc < s.config.memLimit) →
      step s = .next { s with fault := some .fetchAddressInvalid, halted := true }) ∧
    (s.halted = false → 0 ≤ s32 s.pc ∧ s32 s.pc < s.config.memLimit →
      (decode (s.memRead (s32 s.pc).toNat) = .error .opcodeOutOfRange →
        step s = .next { s with fault := some .opcodeOutOfRange, halted := true }) ∧
      (decode (s.memRead (s32 s.pc).toNat) = .error .fieldOutOfRange →
        step s = .next { s with fault := some .fieldOutOfRange, halted := true }) ∧
      ∀ i : Instr, decode (s.memRead (s32 s.pc).toNat) = .ok i → step s = exec i s)

/-- R95 and R182: a running machine's step either completes an instruction, leaving the fault status as it was, or raises one fault and
changes only `fault` and `halted`. That a fault is a next state too (R146) is log 3, DEDUCED; that a step request on a halted machine
answers one (R90) is log 4, DEDUCED. -/
def Obligations.StepIsAtomicAndNeverStuck : Prop :=
  ∀ s : State, ∃ t, step s = .next t ∧
    (s.halted = false →
      (∃ i : Instr, s.fetchDecode = .ok i ∧ exec i s = .next t ∧ t.fault = s.fault) ∨
      ∃ c : FaultCause, t = { s with fault := some c, halted := true })

/-- R141, R146, R147: for a step from a running state, each cause is raised exactly under the condition of the table, the earlier phase
first; the fault status's code is 0 exactly with no fault, and never 5 to 7; and a fault changes nothing but `fault` and `halted`. -/
def Obligations.FaultCausesPriorityAndEntry : Prop :=
  (FaultCause.code .opcodeOutOfRange = 1#3 ∧ FaultCause.code .fieldOutOfRange = 2#3 ∧
    FaultCause.code .fetchAddressInvalid = 3#3 ∧ FaultCause.code .dataAddressInvalid = 4#3 ∧
    ∀ s : State, (s.faultCode = 0#3 ↔ s.fault = none) ∧ s.faultCode.toNat ≤ 4) ∧
  (FaultCause.kind .opcodeOutOfRange = .encodingFault ∧ FaultCause.kind .fieldOutOfRange = .encodingFault ∧
    FaultCause.kind .fetchAddressInvalid = .runtimeFault ∧ FaultCause.kind .dataAddressInvalid = .runtimeFault) ∧
  ∀ s t : State, s.Running → step s = .next t →
    let w : Word := s.memRead (s32 s.pc).toNat
    let pcOk : Prop := 0 ≤ s32 s.pc ∧ s32 s.pc < s.config.memLimit
    let ea : Int := s32 (s.readReg (w.extractLsb' 19 3).toFin) + (w.extractLsb' 0 16).toInt
    (t.faultCode = 3#3 ↔ ¬ pcOk) ∧
    (t.faultCode = 1#3 ↔ pcOk ∧ 7 < u32 w / 2 ^ 23) ∧
    (t.faultCode = 2#3 ↔ pcOk ∧ (u32 w / 2 ^ 23 = 0 ∨ u32 w / 2 ^ 23 = 1) ∧ u32 w / 2 ^ 3 % 2 ^ 13 ≠ 0) ∧
    (t.faultCode = 4#3 ↔ pcOk ∧ (u32 w / 2 ^ 23 = 2 ∨ u32 w / 2 ^ 23 = 3) ∧ ¬ (0 ≤ ea ∧ ea < s.config.memLimit)) ∧
    (t.fault ≠ none → t = { s with fault := t.fault, halted := true })

/-- R133 (with R97): where a step from a running state stops the machine, either a `halt` was executed, the fault status is 0 and the pc is
one past it, or the fault status is the cause and the pc is at the faulting instruction. -/
def Obligations.HaltAndFaultAreTold : Prop :=
  ∀ s t : State, s.Running → step s = .next t → t.halted = true →
    (t.faultCode = 0#3 ∧ t.pc = s.pc + 1 ∧ ∃ (a0 a1 : RegIdx) (a2 : Nat), s.fetchDecode = .ok (.halt a0 a1 a2)) ∨
    (t.faultCode ≠ 0#3 ∧ t.pc = s.pc ∧ ¬ ∃ (a0 a1 : RegIdx) (a2 : Nat), s.fetchDecode = .ok (.halt a0 a1 a2))

/-- R122: a completed instruction leaves the pc elsewhere than one past itself only where it is a `jalr` or a taken `beq`; the transfer
takes effect for the very next fetch, where a bad target is reported with the pc at that target. -/
def Obligations.OnlyBeqAndJalrTransferControl : Prop :=
  ∀ (i : Instr) (s t : State), s.Running → exec i s = .next t → t.fault = none →
    (t.pc ≠ s.pc + 1 → (∃ (a0 a1 : RegIdx) (a2 : Nat), i = .jalr a0 a1 a2) ∨
      ∃ (a0 a1 : RegIdx) (a2 : Int), i = .beq a0 a1 a2 ∧ s.readReg a0 = s.readReg a1) ∧
    (t.halted = false → ¬ t.ValidAddr (s32 t.pc) →
      step t = .next { t with fault := some .fetchAddressInvalid, halted := true })

/-- R180: a `sw` into the cell the very next step fetches is seen by that step: it fetches the register that was stored. -/
def Obligations.StoreIsSeenByTheNextFetch : Prop :=
  ∀ (a0 a1 : RegIdx) (a2 : Int) (s t : State), s.halted = false →
    0 ≤ s32 (s.readReg a0) + a2 ∧ s32 (s.readReg a0) + a2 < s.config.memLimit → exec (.sw a0 a1 a2) s = .next t →
    (∀ pc : Word, s32 pc = s32 (s.readReg a0) + a2 → ({ t with pc := pc } : State).fetch = .ok (s.readReg a1)) ∧
    (s32 t.pc = s32 (s.readReg a0) + a2 → ∀ i : Instr, decode (s.readReg a1) = .ok i → step t = exec i t)

/-- R23: the table of registers read and written. An instruction changes no register but the one the table says it writes; and what it
does to everything else, and the value it writes, depend on no register but those the table says it reads. -/
def Obligations.RegistersReadAndWrittenAsTabled : Prop :=
  (∀ (i : Instr) (s t : State) (r : RegIdx), exec i s = .next t → regWritten i ≠ some r → t.readReg r = s.readReg r) ∧
  (∀ (i : Instr) (s s' t t' : State), s.Running → s.SameButRegs s' → (∀ r ∈ regsRead i, s'.readReg r = s.readReg r) →
    exec i s = .next t → exec i s' = .next t' →
    t.SameButRegs t' ∧ ∀ r, regWritten i = some r → t.fault = none → t'.readReg r = t.readReg r)

/-! ## Invariants and whole-machine rules -/

/-- The invariant that every step keeps, from every state that meets it: parameters in bounds, memory canonical with nothing listed beyond
the stack region, the stack region inside the address space (R20), and a fault status only in a halted machine (R27, R162). -/
def Obligations.StepKeepsTheInvariant : Prop :=
  ∀ s t : State, s.Inv → step s = .next t → t.Inv

/-- Reset meets the invariant under all parameters in their bounds, and `State.reset` is that reset with the model's choice of parameters
(log 2, log 5). -/
def Obligations.ResetMeetsTheInvariant : Prop :=
  (∀ c : Config, c.wf → (State.resetWith c).Inv) ∧ State.reset = State.resetWith Config.default

/-- R33 and R170: what reset leaves, for every machine whatever its state: registers, pc, halt flag, fault status and stack length 0, the
code/data region equal to the loaded image again, every address from `N` up reading 0. -/
def Obligations.ResetGivesTheStatedValues : Prop :=
  ∀ s : State,
    (∀ r : RegIdx, s.hostReset.readReg r = 0) ∧ s.hostReset.pc = 0 ∧ s.hostReset.halted = false ∧
    s.hostReset.faultCode = 0 ∧ s.hostReset.stackLen = 0 ∧ s.hostReset.config = s.config ∧
    (∀ (a : Nat) (h : a < s.config.image.length), s.hostReset.memRead a = s.config.image[a]) ∧
    ∀ a : Nat, s.config.image.length ≤ a → s.hostReset.memRead a = 0

/-- R171: of what the spec lets happen to the machine, reset alone leaves Halted and clears a fault status. Stepping does neither, however
many steps are requested (a step request on a halted machine answers the same state: R90; log 4, DEDUCED); nor does the harness preset;
nor does load, which by the model's choice keeps the status until the reset that follows it (log 5, DESIGN CHOICE). Reset does both, and
keeps nothing but the loaded image and the parameters. `State.withFetchWord` is no operation of the machine: it stands for a load and the
reset after it (log 5). -/
def Obligations.OnlyResetLeavesHalted : Prop :=
  (∀ (k : Nat) (s : State), s.halted = true → State.steps k s = .next s) ∧
  (∀ (k : Nat) (s t : State), s.fault ≠ none → State.steps k s = .next t → t.fault ≠ none) ∧
  (∀ (s : State) (x : Vector Word 8), s.SameStatus (s.preset x)) ∧
  (∀ (s l : State) (image : List Word), s.load image = some l → s.SameStatus l) ∧
  (∀ s : State, s.hostReset.halted = false ∧ s.hostReset.fault = none) ∧
  ∀ s s' : State, s.config = s'.config → s.hostReset = s'.hostReset

/-- Along every run from every state the parameters (so `N`) never change and the stack region only grows (R29, R30, R32); each step that
grows it is a `sw` beyond its end. -/
def Obligations.StackRegionOnlyGrows : Prop :=
  (∀ (k : Nat) (s t : State), State.steps k s = .next t → t.config = s.config ∧ s.stackLen ≤ t.stackLen) ∧
  ∀ s t : State, step s = .next t → t.stackLen ≠ s.stackLen →
    ∃ (a0 a1 : RegIdx) (a2 : Int), s.fetchDecode = .ok (.sw a0 a1 a2) ∧
      (s.codeLen + s.stackLen : Int) ≤ s32 (s.readReg a0) + a2

/-- R31: no instruction can observe `stack_len`. From two states of the invariant that differ in it alone, a step gives two states that
differ in it alone; and every read is the read of one total array. -/
def Obligations.StackLengthIsUnobservable : Prop :=
  (∀ s : State, s.Inv → ∀ a : Nat, s.memRead a = Memory.read s.mem a) ∧
  ∀ s s' t t' : State, s.Inv → s'.Inv → s.SameButStackLen s' → step s = .next t → step s' = .next t' → t.SameButStackLen t'

/-- R97: how a run ends. A run from a running state that has ended came to its end in one last step from a running state `u` that the run
reached: normally, by a `halt` at `u`, one past which the pc then is; or abnormally, and then the end is `u` with only `fault` and `halted`
set. -/
def Obligations.RunsEndByHaltOrByFault : Prop :=
  ∀ (n : Nat) (s t : State), s.Running → State.run n s = some t →
    t.halted = true ∧ ∃ (k : Nat) (u : State), k < n ∧ State.steps k s = .next u ∧ u.Running ∧ step u = .next t ∧
      (t.EndedNormally → t.pc = u.pc + 1 ∧ ∃ (a0 a1 : RegIdx) (a2 : Nat), u.fetchDecode = .ok (.halt a0 a1 a2)) ∧
      (t.EndedAbnormally → t = { u with fault := t.fault, halted := true })

/-! ## The host -/

/-- `run` is the repeated step (R96, R159): with fuel `n` it ends in `t` exactly when `n` requested steps reach the halted state `t`; more
fuel never changes the end. The fuel is the executor's (log 10, DEDUCED); that the steps requested beyond the halt answer the same state is
the model's reading of R90 (log 4, DEDUCED). -/
def Obligations.RunIsTheRepeatedStep : Prop :=
  (∀ (n : Nat) (s t : State), State.run n s = some t ↔ State.steps n s = .next t ∧ t.halted = true) ∧
  ∀ (n m : Nat) (s t : State), n ≤ m → State.run n s = some t → State.run m s = some t

/-- R172 and R173: an image of at most `MEM_LIMIT` words loads, sets `N` and every code cell, and is what reset then starts from; a longer
one does not load. -/
def Obligations.LoadInstallsTheImage : Prop :=
  ∀ (s : State) (image : List Word),
    (image.length ≤ s.config.memLimit → ∃ l, s.load image = some l ∧ l.codeLen = image.length ∧
      l.config.memLimit = s.config.memLimit ∧
      ∀ (k : Nat) (h : k < image.length), l.memRead k = image[k] ∧ l.hostReset.memRead k = image[k]) ∧
    (s.config.memLimit < image.length → s.load image = none)

/-- `dump` shows the whole state (R37, R177): two states of the invariant with the same parameters and the same dump are equal. -/
def Obligations.DumpShowsTheWholeState : Prop :=
  ∀ s t : State, s.Inv → t.Inv → s.config = t.config → s.dump = t.dump → s = t

/-- The instruction that the host places is the instruction that the very next step runs (the model's way in, log 5). -/
def Obligations.PlacedWordIsRunNext : Prop :=
  ∀ (s : State) (nbits w : Nat) (i : Instr), s.ValidAddr (s32 s.pc) → decodeTableWord nbits w = some i →
    step (s.withFetchWord nbits w) = exec i (s.withFetchWord nbits w)

/-! ## The toolchain interface -/

/-- R83: a `beq` line whose third operand is a label gets the displacement from the next instruction to it, a numeric one is the
displacement itself; and the assembled cell, executed taken at its own address, goes to the label. -/
def Obligations.AssembledBranchReachesItsLabel : Prop :=
  ∀ (t : Assembler.Symbols) (label : Option String) (a0 a1 : Int) (address : Nat),
    (∀ k : Int, Assembler.CodeLine.fields ⟨label, "beq", [.num a0, .num a1, .num k]⟩ t address = some ⟨4, a0, a1, k⟩) ∧
    ∀ (name : String) (target : Nat), Assembler.Symbols.find t name = some target →
      ∃ f : Fields, Assembler.CodeLine.fields ⟨label, "beq", [.num a0, .num a1, .sym name]⟩ t address = some f ∧
        f.a2 = (target : Int) - (address + 1) ∧
        ∀ w : Word, f.encode = some w → ∃ (r0 r1 : RegIdx), decode w = .ok (.beq r0 r1 f.a2) ∧ (r0.val : Int) = a0 ∧
          (r1.val : Int) = a1 ∧
          ∀ s : State, s.pc = BitVec.ofNat 32 address → s.readReg r0 = s.readReg r1 →
            ∃ u, exec (.beq r0 r1 f.a2) s = .next u ∧ u.pc = BitVec.ofNat 32 target

/-- The program image (R88): every module's code lines, then every module's data lines, then the `Stack` line, so that
`N` = code lines + `.fill` lines + 1 and the last cell, at address `N - 1`, is 0. -/
def Obligations.ImageIsCodeThenDataThenStack : Prop :=
  ∀ (ms : List Assembler.Module) (ls : List Assembler.ResolvedLine), Assembler.link ms = some ls →
    (∃ code data, Assembler.linkCode 0 (Assembler.codeLines ms) ms = some code ∧
      Assembler.linkData 0 (Assembler.codeLines ms) ms = some data ∧ ls = code ++ data ++ [⟨some "Stack", 0⟩] ∧
      code.length = Assembler.codeLines ms ∧ data.length = Assembler.fillLines ms) ∧
    ∃ img, Assembler.image ms = some img ∧ img.length = Assembler.codeLines ms + Assembler.fillLines ms + 1 ∧
      img.getLast? = some 0 ∧ ∀ k : Nat, img[k]? = ls[k]?.map Assembler.ResolvedLine.cell
end

