-- ==== Sys2Proof/Laws/Encoding.lean ====
section
/-! SUPPORT. The instruction word as a number: what the encoding formula and the decoder's fields are in arithmetic. -/

namespace Sys2Proof

/-- Disjoint fields or-ed together add up (R60). -/
theorem pack_toNat {o a b : Nat} {k : Int} (ho : o < 8) (ha : a < 8) (hb : b < 8) :
    u32 (Fields.pack ⟨o, a, b, k⟩) = o * 2 ^ 23 + a * 2 ^ 19 + b * 2 ^ 16 + (k % 2 ^ 16).toNat := by
  have hk : (k % 2 ^ 16).toNat < 2 ^ 16 := by omega
  have h1 : (b <<< 16) ||| (k % 2 ^ 16).toNat = b * 2 ^ 16 + (k % 2 ^ 16).toNat := by
    rw [← Nat.shiftLeft_add_eq_or_of_lt hk, Nat.shiftLeft_eq]
  have h2 : (a <<< 19) ||| (b * 2 ^ 16 + (k % 2 ^ 16).toNat) = a * 2 ^ 19 + (b * 2 ^ 16 + (k % 2 ^ 16).toNat) := by
    rw [← Nat.shiftLeft_add_eq_or_of_lt (by omega), Nat.shiftLeft_eq]
  have h3 : (o <<< 23) ||| (a * 2 ^ 19 + (b * 2 ^ 16 + (k % 2 ^ 16).toNat))
      = o * 2 ^ 23 + (a * 2 ^ 19 + (b * 2 ^ 16 + (k % 2 ^ 16).toNat)) := by
    rw [← Nat.shiftLeft_add_eq_or_of_lt (by omega), Nat.shiftLeft_eq]
  simp only [Fields.pack, u32, Int.toNat_natCast]
  rw [Nat.or_assoc, Nat.or_assoc, h1, h2, h3, BitVec.toNat_ofNat]
  omega

theorem oprOf_eq (w : Word) : oprOf w = u32 w / 2 ^ 23 := by simp [oprOf, Nat.shiftRight_eq_div_pow]

theorem a0Of_val (w : Word) : (a0Of w).val = u32 w / 2 ^ 19 % 8 := by simp [a0Of, Nat.shiftRight_eq_div_pow]

theorem a1Of_val (w : Word) : (a1Of w).val = u32 w / 2 ^ 16 % 8 := by simp [a1Of, Nat.shiftRight_eq_div_pow]

/-- Sign extension undoes the 16-bit two's-complement pattern of a displacement in bounds (R64). -/
theorem sext16_emod {d : Int} (h : dispInBounds d = true) : sext16 (d % 2 ^ 16).toNat = d := by
  simp only [dispInBounds, Bool.and_eq_true, decide_eq_true_eq] at h
  unfold sext16
  split <;> omega

/-- A sign-extended 16-bit pattern is a displacement in bounds. -/
theorem sext16_inBounds {v : Nat} (h : v < 2 ^ 16) : dispInBounds (sext16 v) = true := by
  simp only [dispInBounds, Bool.and_eq_true, decide_eq_true_eq]
  unfold sext16
  split <;> omega

theorem rawOf_lt (w : Word) : rawOf w < 2 ^ 16 := Nat.mod_lt _ (by decide)

/-- The register-only opcodes' third field (R63): all that `withDestination` can do. -/
theorem withDestination_cases (raw : Nat) (mk : RegIdx → Instr) :
    (7 < raw ∧ withDestination raw mk = .error .fieldOutOfRange) ∨
      (raw ≤ 7 ∧ withDestination raw mk = .ok (mk (Fin.ofNat 8 raw))) := by
  unfold withDestination
  split
  · exact .inl ⟨by omega, rfl⟩
  · exact .inr ⟨by omega, rfl⟩

/-- All that `decode` can do (R63), by the opcode value and the third field: it is total, and reserved cells reach no instruction. -/
theorem decode_cases (w : Word) :
    (7 < oprOf w ∧ decode w = .error .opcodeOutOfRange) ∨
    (oprOf w ≤ 1 ∧ 7 < rawOf w ∧ decode w = .error .fieldOutOfRange) ∨
    (oprOf w = 0 ∧ rawOf w ≤ 7 ∧ decode w = .ok (.add (a0Of w) (a1Of w) (Fin.ofNat 8 (rawOf w)))) ∨
    (oprOf w = 1 ∧ rawOf w ≤ 7 ∧ decode w = .ok (.nor (a0Of w) (a1Of w) (Fin.ofNat 8 (rawOf w)))) ∨
    (oprOf w = 2 ∧ decode w = .ok (.lw (a0Of w) (a1Of w) (sext16 (rawOf w)))) ∨
    (oprOf w = 3 ∧ decode w = .ok (.sw (a0Of w) (a1Of w) (sext16 (rawOf w)))) ∨
    (oprOf w = 4 ∧ decode w = .ok (.beq (a0Of w) (a1Of w) (sext16 (rawOf w)))) ∨
    (oprOf w = 5 ∧ decode w = .ok (.jalr (a0Of w) (a1Of w) (rawOf w))) ∨
    (oprOf w = 6 ∧ decode w = .ok (.halt (a0Of w) (a1Of w) (rawOf w))) ∨
    (oprOf w = 7 ∧ decode w = .ok (.noop (a0Of w) (a1Of w) (rawOf w))) := by
  have split : 7 < oprOf w ∨ oprOf w = 0 ∨ oprOf w = 1 ∨ oprOf w = 2 ∨ oprOf w = 3 ∨ oprOf w = 4 ∨ oprOf w = 5 ∨
      oprOf w = 6 ∨ oprOf w = 7 := by omega
  rcases split with h | h | h | h | h | h | h | h | h
  · refine .inl ⟨h, ?_⟩
    unfold decode
    split <;> first | omega | rfl
  · rcases withDestination_cases (rawOf w) (Instr.add (a0Of w) (a1Of w)) with h' | h' <;> simp [decode, h, h']
  · rcases withDestination_cases (rawOf w) (Instr.nor (a0Of w) (a1Of w)) with h' | h' <;> simp [decode, h, h']
  all_goals simp [decode, h]

/-- The decoder's fields of an encoded tuple are the tuple's (R60, R65). -/
theorem fields_of_pack {o a b : Nat} (k : Int) (ho : o < 8) (ha : a < 8) (hb : b < 8) :
    oprOf (Fields.pack ⟨o, a, b, k⟩) = o ∧ (a0Of (Fields.pack ⟨o, a, b, k⟩)).val = a ∧
      (a1Of (Fields.pack ⟨o, a, b, k⟩)).val = b ∧ rawOf (Fields.pack ⟨o, a, b, k⟩) = (k % 2 ^ 16).toNat := by
  have hp := pack_toNat (k := k) ho ha hb
  have hk : (k % 2 ^ 16).toNat < 2 ^ 16 := by omega
  rw [oprOf_eq, a0Of_val, a1Of_val, rawOf, hp]
  omega

end Sys2Proof
end

