-- ==== Sys2Proof/Laws/State.lean ====
section
/-! SUPPORT. One lemma for each field under each update of the state, so that no proof unfolds a record update. -/

namespace Sys2Proof.Machine

variable (s : State) (i j : RegIdx) (v w : Word) (a : Nat) (c : FaultCause)

/-! ## writeReg -/

@[simp] theorem writeReg_pc : (s.writeReg i v).pc = s.pc := rfl
@[simp] theorem writeReg_halted : (s.writeReg i v).halted = s.halted := rfl
@[simp] theorem writeReg_fault : (s.writeReg i v).fault = s.fault := rfl
@[simp] theorem writeReg_mem : (s.writeReg i v).mem = s.mem := rfl
@[simp] theorem writeReg_stackLen : (s.writeReg i v).stackLen = s.stackLen := rfl
@[simp] theorem writeReg_config : (s.writeReg i v).config = s.config := rfl

/-- Reading a register after a write: the value written, or the register as it was (R22). -/
theorem readReg_writeReg : (s.writeReg i v).readReg j = if i = j then v else s.readReg j := by
  simp [State.readReg, State.writeReg, Vector.getElem_set, Fin.ext_iff]

@[simp] theorem readReg_writeReg_same : (s.writeReg i v).readReg i = v := by simp [readReg_writeReg]

theorem readReg_writeReg_of_ne {i j : RegIdx} (h : j ≠ i) : (s.writeReg i v).readReg j = s.readReg j := by
  simp [readReg_writeReg, h.symm]

/-! ## advance -/

@[simp] theorem advance_x : s.advance.x = s.x := rfl
@[simp] theorem advance_halted : s.advance.halted = s.halted := rfl
@[simp] theorem advance_fault : s.advance.fault = s.fault := rfl
@[simp] theorem advance_mem : s.advance.mem = s.mem := rfl
@[simp] theorem advance_stackLen : s.advance.stackLen = s.stackLen := rfl
@[simp] theorem advance_config : s.advance.config = s.config := rfl
@[simp] theorem advance_pc : s.advance.pc = nextPc s.pc := rfl
@[simp] theorem readReg_advance : s.advance.readReg j = s.readReg j := rfl

/-! ## raise -/

@[simp] theorem raise_x : (s.raise c).x = s.x := rfl
@[simp] theorem raise_pc : (s.raise c).pc = s.pc := rfl
@[simp] theorem raise_halted : (s.raise c).halted = true := rfl
@[simp] theorem raise_fault : (s.raise c).fault = some c := rfl
@[simp] theorem raise_mem : (s.raise c).mem = s.mem := rfl
@[simp] theorem raise_stackLen : (s.raise c).stackLen = s.stackLen := rfl
@[simp] theorem raise_config : (s.raise c).config = s.config := rfl
@[simp] theorem readReg_raise : (s.raise c).readReg j = s.readReg j := rfl

/-! ## setHalted -/

@[simp] theorem setHalted_x : s.setHalted.x = s.x := rfl
@[simp] theorem setHalted_pc : s.setHalted.pc = s.pc := rfl
@[simp] theorem setHalted_halted : s.setHalted.halted = true := rfl
@[simp] theorem setHalted_fault : s.setHalted.fault = s.fault := rfl
@[simp] theorem setHalted_mem : s.setHalted.mem = s.mem := rfl
@[simp] theorem setHalted_stackLen : s.setHalted.stackLen = s.stackLen := rfl
@[simp] theorem setHalted_config : s.setHalted.config = s.config := rfl
@[simp] theorem readReg_setHalted : s.setHalted.readReg j = s.readReg j := rfl

/-! ## memWrite (its memory and its stack length are in Laws/Memory.lean) -/

@[simp] theorem memWrite_x : (s.memWrite a v).x = s.x := by unfold State.memWrite; split <;> [rfl; split <;> rfl]
@[simp] theorem memWrite_pc : (s.memWrite a v).pc = s.pc := by unfold State.memWrite; split <;> [rfl; split <;> rfl]
@[simp] theorem memWrite_halted : (s.memWrite a v).halted = s.halted := by
  unfold State.memWrite; split <;> [rfl; split <;> rfl]
@[simp] theorem memWrite_fault : (s.memWrite a v).fault = s.fault := by
  unfold State.memWrite; split <;> [rfl; split <;> rfl]
@[simp] theorem memWrite_config : (s.memWrite a v).config = s.config := by
  unfold State.memWrite; split <;> [rfl; split <;> rfl]
@[simp] theorem readReg_memWrite : (s.memWrite a v).readReg j = s.readReg j := by simp [State.readReg]

/-! ## jalr's link write -/

@[simp] theorem link_pc : (s.link i).pc = s.pc := rfl
@[simp] theorem link_halted : (s.link i).halted = s.halted := rfl
@[simp] theorem link_fault : (s.link i).fault = s.fault := rfl
@[simp] theorem link_mem : (s.link i).mem = s.mem := rfl
@[simp] theorem link_stackLen : (s.link i).stackLen = s.stackLen := rfl
@[simp] theorem link_config : (s.link i).config = s.config := rfl

/-! ## The pc and the ALU in bit-vector form -/

/-- The increment is addition modulo 2^32 (R25). -/
theorem nextPc_eq (pc : Word) : nextPc pc = pc + 1 := by simp [nextPc, BitVec.ofInt_add]

/-- A taken branch, the common increment included (R120). -/
theorem nextPc_branchPc (pc : Word) (d : Int) : nextPc (branchPc pc d) = pc + 1 + BitVec.ofInt 32 d := by
  rw [nextPc_eq, branchPc, wrap32, BitVec.ofInt_add, BitVec.ofInt_toInt]
  ac_rfl

/-- "the jump goes exactly to `x[a0]` for every value" (R121). -/
@[simp] theorem nextPc_jumpPc (target : Word) : nextPc (jumpPc target) = target := by
  rw [nextPc_eq, jumpPc, wrap32, Int.sub_eq_add_neg, BitVec.ofInt_add, BitVec.ofInt_toInt, BitVec.add_assoc]
  have h : BitVec.ofInt 32 (-1) + 1 = 0 := by decide
  rw [h]
  exact BitVec.add_zero target

/-- `add` is addition modulo 2^32 (R102). -/
theorem aluAdd_eq (u w : Word) : aluAdd u w = u + w := by simp [aluAdd, BitVec.ofInt_add]

/-! ## The shared operations, each once -/

/-- All that a data access can do: the effect at a valid address, or the entry of `DataAddressInvalid`. -/
theorem accessing_cases (ea : Int) (f : Nat → State) :
    (s.ValidAddr ea ∧ s.accessing ea f = f ea.toNat) ∨
      (¬ s.ValidAddr ea ∧ s.accessing ea f = s.raise .dataAddressInvalid) := by
  unfold State.accessing
  split
  · exact .inl ⟨‹_›, rfl⟩
  · exact .inr ⟨‹_›, rfl⟩

/-- All that fetch and decode can do, in phase order (R147). -/
theorem fetchDecode_cases :
    (¬ s.ValidAddr (s32 s.pc) ∧ s.fetchDecode = .error .fetchAddressInvalid) ∨
      (s.ValidAddr (s32 s.pc) ∧ ∃ d, decode (s.memRead (s32 s.pc).toNat) = .error d ∧
        s.fetchDecode = .error (causeOfDecodeFault d)) ∨
      (s.ValidAddr (s32 s.pc) ∧ ∃ i, decode (s.memRead (s32 s.pc).toNat) = .ok i ∧ s.fetchDecode = .ok i) := by
  unfold State.fetchDecode State.fetch
  by_cases h : s.ValidAddr (s32 s.pc)
  · rw [if_pos h]
    cases hd : decode (s.memRead (s32 s.pc).toNat) with
    | error d => exact .inr (.inl ⟨h, d, rfl, by simp [hd]⟩)
    | ok i => exact .inr (.inr ⟨h, i, rfl, by simp [hd]⟩)
  · rw [if_neg h]
    exact .inl ⟨h, rfl⟩

/-- A halted machine answers a step request with its unchanged state. -/
theorem step_of_halted {s : State} (h : s.halted = true) : step s = .next s := by simp [step, h, State.stepHalted]

/-- All that a step of a running machine can do (R90): enter a fault of fetch or decode, or execute. -/
theorem step_cases {s : State} (h : s.halted = false) :
    (∃ c, s.fetchDecode = .error c ∧ step s = .next (s.raise c)) ∨
      (∃ i, s.fetchDecode = .ok i ∧ step s = exec i s) := by
  unfold step
  cases s.fetchDecode <;> simp [h]

/-! ## Runs of many steps -/

theorem coreRun_succ (M : Host.Core) (k : Nat) {s t : M.State} (h : M.step s = .next t) : M.run (k + 1) s = M.run k t := by
  simp [Host.Core.run, h]

@[simp] theorem steps_zero : State.steps 0 s = .next s := rfl

/-- The first step of a run, and the rest. -/
theorem steps_succ {s t : State} (h : step s = .next t) (k : Nat) : State.steps (k + 1) s = State.steps k t :=
  coreRun_succ Sys2Proof.core k h

end Sys2Proof.Machine
end

