-- ==== Sys2Proof/Laws/Memory.lean ====
section
/-! SUPPORT. The laws of memory: read after write, the canonical form, and when two canonical memories are equal. -/

namespace Sys2Proof.Machine

/-! ## Cells -/

theorem Memory.read_insert (m : Memory) (a : Nat) (v : Word) (b : Nat) (h : ∀ c ∈ m, c.1 ≠ a) :
    Memory.read (Memory.insert a v m) b = if b = a then v else Memory.read m b := by
  induction m with
  | nil => simp [Memory.insert, Memory.read, eq_comm]
  | cons c m ih =>
    obtain ⟨k, w⟩ := c
    have hk : k ≠ a := h (k, w) (by simp)
    have ih := ih fun c hc => h c (by simp [hc])
    by_cases hlt : k < a
    · by_cases hkb : k = b
      · subst hkb; simp [Memory.insert, hlt, Memory.read, hk]
      · simp [Memory.insert, hlt, Memory.read, ih, hkb]
    · by_cases hab : a = b
      · subst hab; simp [Memory.insert, hlt, Memory.read]
      · simp [Memory.insert, hlt, Memory.read, hab, Ne.symm hab]

/-- Filtering by address keeps the cells it keeps and makes the others read as unlisted. -/
theorem Memory.read_filter (m : Memory) (p : Nat → Bool) (b : Nat) :
    Memory.read (m.filter fun c => p c.1) b = if p b then Memory.read m b else Memory.unlisted := by
  induction m with
  | nil => simp [Memory.read]
  | cons c m ih =>
    obtain ⟨k, w⟩ := c
    by_cases hk : k = b
    · subst hk
      by_cases hp : p k
      · simp [hp, Memory.read]
      · rw [List.filter_cons_of_neg (by simpa using hp), ih]; simp [hp]
    · by_cases hp : p k
      · simp [hp, Memory.read, hk, ih]
      · rw [List.filter_cons_of_neg (by simpa using hp), ih]; simp [Memory.read, hk]

/-- Read after write, for every memory: the value written at that address, every other address as before. -/
theorem Memory.read_write (m : Memory) (a : Nat) (v : Word) (b : Nat) :
    Memory.read (Memory.write m a v) b = if b = a then v else Memory.read m b := by
  have hf := Memory.read_filter m (fun k => k != a) b
  unfold Memory.write
  split
  · rename_i hv
    rw [hf]
    by_cases hb : b = a <;> simp [hb, hv]
  · rw [Memory.read_insert _ _ _ _ (by simp), hf]
    by_cases hb : b = a <;> simp [hb]

theorem Memory.read_zeroFill (m : Memory) (lo hi b : Nat) :
    Memory.read (Memory.zeroFill m lo hi) b = if b < lo ∨ hi < b then Memory.read m b else Memory.unlisted := by
  simpa [Memory.zeroFill] using Memory.read_filter m (fun k => decide (k < lo) || decide (hi < k)) b

/-! ## The canonical form -/

theorem Memory.wf_filter {m : Memory} (h : Memory.wf m) (p : Nat × Word → Bool) : Memory.wf (m.filter p) :=
  ⟨h.1.filter p, fun c hc => h.2 c (List.mem_of_mem_filter hc)⟩

theorem Memory.mem_insert {m : Memory} {a : Nat} {v : Word} {c : Nat × Word} :
    c ∈ Memory.insert a v m ↔ c = (a, v) ∨ c ∈ m := by
  induction m with
  | nil => simp [Memory.insert]
  | cons d m ih =>
    unfold Memory.insert
    split
    · simp [ih, or_left_comm]
    · simp

theorem Memory.wf_insert {m : Memory} (h : Memory.wf m) {a : Nat} {v : Word} (hv : v ≠ Memory.unlisted)
    (ha : ∀ c ∈ m, c.1 ≠ a) : Memory.wf (Memory.insert a v m) := by
  refine ⟨?_, fun c hc => ?_⟩
  · obtain ⟨hp, -⟩ := h
    induction m with
    | nil => simp [Memory.insert]
    | cons d m ih =>
      obtain ⟨k, w⟩ := d
      rw [List.pairwise_cons] at hp
      have hk : k ≠ a := ha (k, w) (by simp)
      unfold Memory.insert
      split
      · refine List.pairwise_cons.2 ⟨fun c hc => ?_, ih (fun c hc => ha c (by simp [hc])) hp.2⟩
        rcases Memory.mem_insert.1 hc with rfl | hc
        · assumption
        · exact hp.1 c hc
      · have hak : a < k := by omega
        refine List.pairwise_cons.2 ⟨fun c hc => ?_, List.pairwise_cons.2 hp⟩
        rcases List.mem_cons.1 hc with rfl | hc
        · exact hak
        · exact lt_trans hak (hp.1 c hc)
  · rcases Memory.mem_insert.1 hc with rfl | hc
    · exact hv
    · exact h.2 c hc

/-- A write keeps the canonical form. -/
theorem Memory.wf_write {m : Memory} (h : Memory.wf m) (a : Nat) (v : Word) : Memory.wf (Memory.write m a v) := by
  unfold Memory.write
  split
  · exact Memory.wf_filter h _
  · exact Memory.wf_insert (Memory.wf_filter h _) ‹_› (by simp)

theorem Memory.wf_zeroFill {m : Memory} (h : Memory.wf m) (lo hi : Nat) : Memory.wf (Memory.zeroFill m lo hi) :=
  Memory.wf_filter h _

/-- The addresses a write lists: those listed before, and the address written. -/
theorem Memory.mem_write {m : Memory} {a : Nat} {v : Word} {c : Nat × Word} (hc : c ∈ Memory.write m a v) :
    c ∈ m ∨ c.1 = a := by
  unfold Memory.write at hc
  split at hc
  · exact .inl (List.mem_of_mem_filter hc)
  · rcases Memory.mem_insert.1 hc with rfl | hc
    · exact .inr rfl
    · exact .inl (List.mem_of_mem_filter hc)

/-- Every cell of an image lies in its own address range. -/
theorem Memory.mem_ofCells {a : Nat} {ws : List Word} {c : Nat × Word} (hc : c ∈ Memory.ofCells a ws) :
    a ≤ c.1 ∧ c.1 < a + ws.length := by
  induction ws generalizing a with
  | nil => simp [Memory.ofCells] at hc
  | cons w ws ih =>
    unfold Memory.ofCells at hc
    split at hc
    · have := ih hc; simp; omega
    · rcases List.mem_cons.1 hc with rfl | hc
      · simp
      · have := ih hc; simp; omega

/-- A placed image is in canonical form. -/
theorem Memory.wf_ofCells (a : Nat) (ws : List Word) : Memory.wf (Memory.ofCells a ws) := by
  induction ws generalizing a with
  | nil => exact ⟨List.Pairwise.nil, fun c hc => absurd hc List.not_mem_nil⟩
  | cons w ws ih =>
    unfold Memory.ofCells
    split
    · exact ih (a + 1)
    · refine ⟨List.pairwise_cons.2 ⟨fun c hc => ?_, (ih (a + 1)).1⟩, fun c hc => ?_⟩
      · have := Memory.mem_ofCells hc; simp; omega
      · rcases List.mem_cons.1 hc with rfl | hc
        · assumption
        · exact (ih (a + 1)).2 c hc

/-- An address that is not listed reads as unlisted. -/
theorem Memory.read_of_not_listed {m : Memory} {a : Nat} (h : ∀ c ∈ m, c.1 ≠ a) : Memory.read m a = Memory.unlisted := by
  induction m with
  | nil => rfl
  | cons c m ih =>
    obtain ⟨k, w⟩ := c
    simp [Memory.read, h (k, w) (by simp), ih fun c hc => h c (by simp [hc])]

/-- A placed image reads back, cell by cell; every other address reads as unlisted. -/
theorem Memory.read_ofCells (a : Nat) (ws : List Word) (b : Nat) :
    Memory.read (Memory.ofCells a ws) b = if a ≤ b then (ws[b - a]?).getD Memory.unlisted else Memory.unlisted := by
  induction ws generalizing a with
  | nil => simp [Memory.ofCells, Memory.read]
  | cons w ws ih =>
    have hstep : ∀ h : a < b, b - a = (b - (a + 1)) + 1 := fun h => by omega
    unfold Memory.ofCells
    rcases lt_trichotomy a b with h | h | h
    · have : a + 1 ≤ b := h
      split <;> simp [Memory.read, ih, this, h.le, hstep h, h.ne]
    · subst h
      split <;> simp_all [Memory.read]
    · have h1 : ¬ a + 1 ≤ b := by omega
      have h2 : ¬ a ≤ b := by omega
      split <;> simp [Memory.read, ih, h1, h.ne']

/-! ## The access primitives of the state -/

theorem memRead_congr {s t : State} (hm : t.mem = s.mem) (hl : t.stackLen = s.stackLen) (hc : t.config = s.config) (a : Nat) :
    t.memRead a = s.memRead a := by
  simp only [State.memRead, State.codeLen, hm, hl, hc]

variable (s : State) (i : RegIdx) (v : Word) (a b : Nat) (c : FaultCause)

@[simp] theorem memRead_writeReg : (s.writeReg i v).memRead a = s.memRead a := rfl
@[simp] theorem memRead_advance : s.advance.memRead a = s.memRead a := rfl
@[simp] theorem memRead_raise : (s.raise c).memRead a = s.memRead a := rfl
@[simp] theorem memRead_setHalted : s.setHalted.memRead a = s.memRead a := rfl
@[simp] theorem memRead_link : (s.link i).memRead a = s.memRead a := rfl

/-- Beyond both regions a read gives 0 (R44). -/
theorem memRead_beyond {s : State} {a : Nat} (h : s.codeLen + s.stackLen ≤ a) : s.memRead a = 0 := by
  have h1 : ¬ a < s.codeLen := by omega
  have h2 : ¬ a - s.codeLen < s.stackLen := by omega
  simp only [State.memRead, h1, h2, if_false]
  rfl

/-- The stack length after a write (R45). -/
theorem memWrite_stackLen :
    (s.memWrite a v).stackLen = if s.codeLen + s.stackLen ≤ a then a - s.codeLen + 1 else s.stackLen := by
  unfold State.memWrite
  split
  · rw [if_neg (by omega)]
  · split
    · rw [if_neg (by omega)]
    · rw [if_pos (by omega)]

/-- Read after write (R44, R45), for every state: the value written, and every other cell as before, the zero-filled ones too. -/
theorem memRead_memWrite : (s.memWrite a v).memRead b = if b = a then v else s.memRead b := by
  unfold State.memWrite
  split
  · rename_i h
    simp only [State.memRead, Memory.read_write]
    by_cases hb : b = a
    · subst hb; simp [h]
    · simp [hb]
  · split
    · rename_i h h'
      simp only [State.memRead, Memory.read_write]
      by_cases hb : b = a
      · subst hb; simp [h, h']
      · simp [hb]
    · rename_i h h'
      simp only [State.memRead, Memory.read_write, Memory.read_zeroFill]
      by_cases hb : b = a
      · subst hb; simp [h]
      · by_cases hN : b < s.codeLen
        · have : b < s.codeLen + s.stackLen := by omega
          simp [hb, hN, this]
        · by_cases hS : b - s.codeLen < s.stackLen
          · have h1 : b < s.codeLen + s.stackLen := by omega
            have h2 : b - s.codeLen < a - s.codeLen + 1 := by omega
            simp [hb, hN, hS, h1, h2]
          · have h1 : ¬ b < s.codeLen + s.stackLen := by omega
            by_cases h3 : a < b
            · have h4 : ¬ b - s.codeLen < a - s.codeLen + 1 := by omega
              simp [hb, hN, hS, h4]
            · simp [hb, hN, hS, h1, h3]

/-- Every write of the state keeps the canonical form. -/
theorem memWrite_wf {s : State} (h : Memory.wf s.mem) (a : Nat) (v : Word) : Memory.wf (s.memWrite a v).mem := by
  unfold State.memWrite
  split
  · exact Memory.wf_write h a v
  · split
    · exact Memory.wf_write h a v
    · exact Memory.wf_write (Memory.wf_zeroFill h _ _) a v

/-- The addresses listed after a write were listed before, or are the address written. -/
theorem memWrite_listed {s : State} {a : Nat} {v : Word} {c : Nat × Word} (hc : c ∈ (s.memWrite a v).mem) :
    c ∈ s.mem ∨ c.1 = a := by
  unfold State.memWrite at hc
  split at hc
  · exact Memory.mem_write hc
  · split at hc
    · exact Memory.mem_write hc
    · rcases Memory.mem_write hc with hc | hc
      · exact .inl (List.mem_of_mem_filter hc)
      · exact .inr hc

/-- Two canonical memories that read the same everywhere are equal data. -/
theorem Memory.ext_of_wf {m n : Memory} (hm : Memory.wf m) (hn : Memory.wf n)
    (h : ∀ a, Memory.read m a = Memory.read n a) : m = n := by
  induction m generalizing n with
  | nil =>
    cases n with
    | nil => rfl
    | cons d n => exact absurd ((by simpa [Memory.read] using h d.1) : Memory.unlisted = d.2).symm (hn.2 d (by simp))
  | cons c m ih =>
    cases n with
    | nil => exact absurd (by simpa [Memory.read] using h c.1) (hm.2 c (by simp))
    | cons d n =>
      have hmp := List.pairwise_cons.1 hm.1
      have hnp := List.pairwise_cons.1 hn.1
      have hm0 : Memory.read m c.1 = Memory.unlisted :=
        Memory.read_of_not_listed fun e he => (hmp.1 e he).ne'
      have hn0 : Memory.read n d.1 = Memory.unlisted :=
        Memory.read_of_not_listed fun e he => (hnp.1 e he).ne'
      have hkey : c.1 = d.1 := by
        rcases lt_trichotomy c.1 d.1 with hlt | heq | hgt
        · have h0 : Memory.read (d :: n) c.1 = Memory.unlisted :=
            Memory.read_of_not_listed fun e he => by
              rcases List.mem_cons.1 he with rfl | he
              · exact hlt.ne'
              · exact (hlt.trans (hnp.1 e he)).ne'
          exact absurd (by rw [← h0, ← h c.1]; simp [Memory.read]) (hm.2 c (by simp))
        · exact heq
        · have h0 : Memory.read (c :: m) d.1 = Memory.unlisted :=
            Memory.read_of_not_listed fun e he => by
              rcases List.mem_cons.1 he with rfl | he
              · exact hgt.ne'
              · exact (hgt.trans (hmp.1 e he)).ne'
          exact absurd (by rw [← h0, h d.1]; simp [Memory.read]) (hn.2 d (by simp))
      have hval : c.2 = d.2 := by simpa [Memory.read, hkey] using h c.1
      have hcd : c = d := Prod.ext hkey hval
      subst hcd
      congr 1
      refine ih ⟨hmp.2, fun e he => hm.2 e (by simp [he])⟩ ⟨hnp.2, fun e he => hn.2 e (by simp [he])⟩ fun a => ?_
      by_cases ha : c.1 = a
      · subst ha; rw [hm0, hn0]
      · simpa [Memory.read, ha] using h a

end Sys2Proof.Machine
end

