-- ==== Sys2Proof/Laws/PerInstr.lean ====
section
/-! SUPPORT. Facts about every instruction as syntax, one lemma a constructor: `encode` gives a number below 2^26 with bit 22 clear
(spec R65: "bits 31:26 and bit 22 are 0"). -/

namespace Sys2Proof.Laws.EncodingFits

/-- "a non-negative integer below `2^26`, stored in the 32-bit cell unchanged (bits 31:26 and bit 22 are 0)" (R65). -/
def Statement (i : Instr) : Prop := u32 (encode i) < 2 ^ 26 ∧ u32 (encode i) / 2 ^ 22 % 2 = 0

/-- Fields in range leave bit 22 and the bits above 25 clear. -/
theorem of_fields {o a b : Nat} (k : Int) (ho : o < 8) (ha : a < 8) (hb : b < 8) :
    u32 (Fields.pack ⟨o, a, b, k⟩) < 2 ^ 26 ∧ u32 (Fields.pack ⟨o, a, b, k⟩) / 2 ^ 22 % 2 = 0 := by
  have hk : (k % 2 ^ 16).toNat < 2 ^ 16 := by omega
  rw [pack_toNat ho ha hb]
  omega

theorem add (a0 a1 a2 : RegIdx) : Statement (.add a0 a1 a2) := of_fields (o := 0) _ (by decide) a0.2 a1.2
theorem nor (a0 a1 a2 : RegIdx) : Statement (.nor a0 a1 a2) := of_fields (o := 1) _ (by decide) a0.2 a1.2
theorem lw (a0 a1 : RegIdx) (a2 : Int) : Statement (.lw a0 a1 a2) := of_fields (o := 2) _ (by decide) a0.2 a1.2
theorem sw (a0 a1 : RegIdx) (a2 : Int) : Statement (.sw a0 a1 a2) := of_fields (o := 3) _ (by decide) a0.2 a1.2
theorem beq (a0 a1 : RegIdx) (a2 : Int) : Statement (.beq a0 a1 a2) := of_fields (o := 4) _ (by decide) a0.2 a1.2
theorem jalr (a0 a1 : RegIdx) (a2 : Nat) : Statement (.jalr a0 a1 a2) := of_fields (o := 5) _ (by decide) a0.2 a1.2
theorem halt (a0 a1 : RegIdx) (a2 : Nat) : Statement (.halt a0 a1 a2) := of_fields (o := 6) _ (by decide) a0.2 a1.2
theorem noop (a0 a1 : RegIdx) (a2 : Nat) : Statement (.noop a0 a1 a2) := of_fields (o := 7) _ (by decide) a0.2 a1.2

end Sys2Proof.Laws.EncodingFits
end

