-- ==== Sys2Proof/Tests/Slice0.lean ====
section
/-! SUPPORT. Tests. Expected results are those of spec/95_test_vectors.md (its ids in the comments) or are worked out by hand from a rule;
and, for every statement with hypotheses, a witness that meets them. -/

namespace Sys2Proof.Tests

open Sys2Proof.Machine

/-! ## Decoding: one word for each constructor, written bit by bit from the patterns of R68 -/

theorem test_decode_add : decode 0b00000000000010100000000000000011#32 = .ok (.add 1 2 3) := by decide
theorem test_decode_nor : decode 0b00000000101111000000000000000111#32 = .ok (.nor 7 4 7) := by decide
theorem test_decode_lw : decode 0b00000001001010111111111111111111#32 = .ok (.lw 5 3 (-1)) := by decide
theorem test_decode_sw : decode 0b00000001101111110111111111111111#32 = .ok (.sw 7 7 32767) := by decide
theorem test_decode_beq : decode 0b00000010000000011000000000000000#32 = .ok (.beq 0 1 (-32768)) := by decide
theorem test_decode_jalr : decode 0b00000010101101110000000000000000#32 = .ok (.jalr 6 7 0) := by decide
theorem test_decode_halt : decode 0b00000011001111111111111111111111#32 = .ok (.halt 7 7 65535) := by decide
theorem test_decode_noop : decode 0b00000011100000000000000000000000#32 = .ok (.noop 0 0 0) := by decide

/-- K5: bit 22 is ignored. -/
theorem test_decode_bit22 : decode 0x00410002#32 = .ok (.add 0 1 2) := by decide
/-- K6, K9: a third field above 7. -/
theorem test_decode_field : decode 8#32 = .error .fieldOutOfRange ∧ decode 0x0080FFFF#32 = .error .fieldOutOfRange := by decide
/-- K23, K26: the opcode check comes first; every negative cell faults so. -/
theorem test_decode_opcode : decode 0x04000008#32 = .error .opcodeOutOfRange ∧ decode 0xFFFFFFFF#32 = .error .opcodeOutOfRange := by
  decide
/-- E7, E11, E13. -/
theorem test_encode : encode (.lw 7 7 (-32768)) = 0x013F8000#32 ∧ encode (.beq 0 0 (-3)) = 0x0200FFFD#32 ∧
    encode (.jalr 6 7 0) = 0x02B70000#32 := by decide
/-- The host's way in reads the same decoder, and nothing above one cell. -/
theorem test_decodeTableWord : decodeTableWord 32 0x03000000 = some (.halt 0 0 0) ∧ decodeTableWord 32 8 = none ∧
    decodeTableWord 64 (2 ^ 32) = none := by decide

/-! ## WellFormed: an ill-formed term for each check -/

theorem test_illformed_lw : (Instr.lw 0 0 32768).wellFormed = false ∧ (Instr.lw 0 0 (-32769)).wellFormed = false := by decide
theorem test_illformed_sw : (Instr.sw 0 0 32768).wellFormed = false ∧ (Instr.sw 0 0 (-32769)).wellFormed = false := by decide
theorem test_illformed_beq : (Instr.beq 0 0 32768).wellFormed = false ∧ (Instr.beq 0 0 (-32769)).wellFormed = false := by decide
theorem test_illformed_unused : (Instr.jalr 0 0 65536).wellFormed = false ∧ (Instr.halt 0 0 65536).wellFormed = false ∧
    (Instr.noop 0 0 65536).wellFormed = false := by decide
theorem test_wellformed_bounds : (Instr.lw 7 7 (-32768)).wellFormed = true ∧ (Instr.beq 7 7 32767).wellFormed = true ∧
    (Instr.halt 7 7 65535).wellFormed = true := by decide
theorem test_not_assemblerForm : (Instr.jalr 1 2 1).assemblerForm = false ∧ (Instr.halt 1 0 0).assemblerForm = false ∧
    (Instr.halt 0 1 0).assemblerForm = false ∧ (Instr.noop 0 0 1).assemblerForm = false ∧
    (Instr.lw 0 0 32768).assemblerForm = false := by decide
/-- The encoder refusals listed under table E. -/
theorem test_encoder_refusals : Fields.encode ⟨0, 8, 0, 0⟩ = none ∧ Fields.encode ⟨0, 0, -1, 0⟩ = none ∧
    Fields.encode ⟨0, 0, 0, 8⟩ = none ∧ Fields.encode ⟨2, 0, 0, 32768⟩ = none ∧ Fields.encode ⟨2, 0, 0, -32769⟩ = none ∧
    Fields.encode ⟨8, 0, 0, 0⟩ = none ∧ Fields.encode ⟨6, 0, 0, 65536⟩ = none := by decide

/-! ## Single steps (the vectors of section 2.3) -/

/-- The reset state under a bound and an image, with the registers preset as the vectors do (R176). -/
def start (limit : Nat) (image : List Word) (x : Vector Word 8) : State :=
  (State.resetWith { memLimit := limit, image := image }).preset x

/-- The state after one step. -/
def after (s : State) : State :=
  match step s with
  | .next t => t
  | _ => s

/-- The image of L1 to L9 and W1 to W8: the instruction, then `halt`, 111, -222. -/
def imageWith (w : Word) : List Word := [w, 0x03000000, 111, -222]

/-- A6: overflow wraps. -/
theorem test_add_wraps : let t := after (start (2 ^ 31) [0x000A0003] #v[0, 0x7FFFFFFF, 1, 0, 0, 0, 0, 0]);
    t.x = #v[0, 0x7FFFFFFF, 1, 0x80000000, 0, 0, 0, 0] ∧ t.pc = 1 := by decide
/-- A2: a source that is also the destination; A4: register 0 is an ordinary destination. -/
theorem test_add_same_register : (after (start 16 [0x00090001] #v[0, 3, 0, 0, 0, 0, 0, 0])).readReg 1 = 6 ∧
    (after (start 16 [0x000A0000] #v[0, 5, 7, 0, 0, 0, 0, 0])).readReg 0 = 12 := by decide
/-- B1, B3. -/
theorem test_nor_bitwise : (after (start 16 [0x008A0003] #v[0, 0, 0, 9, 0, 0, 0, 0])).readReg 3 = -1 ∧
    (after (start 16 [0x008A0003] #v[0, 5, 3, 9, 0, 0, 0, 0])).readReg 3 = -8 := by decide
/-- L2, L3: a negative displacement; an unwritten address loads 0 and the stack does not grow. -/
theorem test_lw : (after (start (2 ^ 31) (imageWith 0x010AFFFF) #v[0, 4, 0, 0, 0, 0, 0, 0])).readReg 2 = -222 ∧
    (let t := after (start (2 ^ 31) (imageWith 0x010A0003) #v[0, 100, 55, 0, 0, 0, 0, 0]);
    t.readReg 2 = 0 ∧ t.stackLen = 0 ∧ t.pc = 1) := by decide
/-- L9: the effective address is exact, so this one faults; nothing but the fault status and the halt flag changes. -/
theorem test_lw_never_wraps : let s := start (2 ^ 31) (imageWith 0x010AFFFF) #v[0, 0x80000000, 55, 0, 0, 0, 0, 0];
    after s = { s with fault := some .dataAddressInvalid, halted := true } := by decide
/-- W3: a far write zero-fills; W4: no protection below N. -/
theorem test_sw : (after (start (2 ^ 31) (imageWith 0x018A0001) #v[0, 8, 9, 0, 0, 0, 0, 0])).dump.stack = [0, 0, 0, 0, 0, 9] ∧
    (after (start (2 ^ 31) (imageWith 0x018AFFFE) #v[0, 3, -5, 0, 0, 0, 0, 0])).dump.code = [0x018AFFFE, -5, 111, -222] := by
  decide
/-- P10, step 3, with `MEM_LIMIT = 16`: address 16 is invalid. -/
theorem test_sw_limit : (after (start 16 [0x01890002] #v[0, 14, 0, 0, 0, 0, 0, 0])).faultCode = 4 ∧
    (after (start (2 ^ 31) [0x01890002] #v[0, 14, 0, 0, 0, 0, 0, 0])).stackLen = 16 := by decide
/-- Q3: taken backwards; Q2: not taken. -/
theorem test_beq : (after { start (2 ^ 31) [] #v[0, -1, -1, 0, 0, 0, 0, 0] with
      pc := 10, mem := [(10, 0x020AFFFD)], stackLen := 11 }).pc = 8 ∧
    (after { start (2 ^ 31) [] #v[0, 4, 5, 0, 0, 0, 0, 0] with pc := 10, mem := [(10, 0x020A0005)], stackLen := 11 }).pc = 11 := by
  decide
/-- J1; J2: the link is written first, so with one register the jump falls through. -/
theorem test_jalr : (let t := after { start (2 ^ 31) [0, 0, 0, 0x02B70000] #v[0, 0, 0, 0, 0, 0, 5, 0] with pc := 3 };
      t.readReg 7 = 4 ∧ t.pc = 5) ∧
    (let t := after { start (2 ^ 31) [0, 0, 0, 0x02A40000] #v[0, 0, 0, 0, 99, 0, 0, 0] with pc := 3 };
      t.readReg 4 = 4 ∧ t.pc = 4) := by decide
/-- H2; H3: a step request on a halted machine changes nothing. -/
theorem test_halt : let t := after { start 16 [0, 0, 0, 0, 0x037FFFFF] (.replicate 8 0) with pc := 4 };
    t.halted = true ∧ t.pc = 5 ∧ t.faultCode = 0 ∧ after t = t := by decide
/-- O2. -/
theorem test_noop : let s := { start 16 [0, 0, 0, 0, 0x03FFFFFF] (.replicate 8 3) with pc := 4 };
    after s = { s with pc := 5 } := by decide
/-- F1, F3, F5: what each fault leaves. -/
theorem test_faults : (after { start 16 [0] (.replicate 8 0) with pc := -1 }).faultCode = 3 ∧
    (after (start 16 [-1] (.replicate 8 0))).faultCode = 1 ∧ (after (start 16 [8] (.replicate 8 0))).faultCode = 2 ∧
    (after (start 16 [8] (.replicate 8 0))).pc = 0 := by decide
/-- F7: a fetch beyond the image reads 0, which is `add 0 0 0`. -/
theorem test_fetch_beyond : let t := after { start (2 ^ 31) [1, 2, 3, 4] #v[3, 0, 0, 0, 0, 0, 0, 0] with pc := 100 };
    t.readReg 0 = 6 ∧ t.pc = 101 ∧ t.fault = none := by decide
/-- The placed word is the first instruction after reset. -/
theorem test_withFetchWord : (after (State.reset.withFetchWord 32 0x00800001)).readReg 1 = -1 := by decide
/-- P4, step 3: the stored word is what executes. -/
theorem test_run_halts : (State.run 3 (start 16 [0x01010004, 0x01810002, 0, 0x0200FFFF, 0x03000000, 0] (.replicate 8 0))).map
    (fun t => (t.pc, t.faultCode, t.readReg 1)) = some (3, 0, 50331648) := by decide

/-! ## The toolchain interface -/

/-- S4: a `beq` to the label two lines after it has displacement 1, one back to the line before it has -2. -/
theorem test_assemble_branches :
    Assembler.image [⟨[⟨none, "beq", [.num 0, .num 0, .sym "skip"]⟩, ⟨none, "noop", []⟩, ⟨some "skip", "halt", []⟩], []⟩]
      = some [0x02000001, 0x03800000, 0x03000000, 0] ∧
    Assembler.image [⟨[⟨some "loop", "add", [.num 1, .num 2, .num 1]⟩, ⟨none, "beq", [.num 0, .num 0, .sym "loop"]⟩], []⟩]
      = some [0x000A0001, 0x0200FFFE, 0] := by decide
/-- A line, a label, a negative `.fill` (E16) and the `Stack` line, from text. -/
theorem test_parse : (Assembler.parseModule "\tlw\t0\t1\tneg\n\thalt\nneg\t.fill\t-1\n").bind (fun m => Assembler.image [m])
    = some [0x01010002, 0x03000000, 0xFFFFFFFF, 0] := by decide
/-- The trailing newline is required (R78); an unknown label is refused (R82). -/
theorem test_parse_refuses : Assembler.parseModule "\thalt" = none ∧
    Assembler.image [⟨[⟨none, "lw", [.num 0, .num 1, .sym "nowhere"]⟩], []⟩] = none := by decide
/-- The model's choices: text after the last operand is refused, an empty text is no line (log 9), and the Linker's `Stack` as an operand
is refused (log 11). -/
theorem test_model_choices : Assembler.parseModule "" = some ⟨[], []⟩ ∧
    (Assembler.parseModule "\thalt\tend\n").bind (fun m => Assembler.image [m]) = none ∧
    Assembler.image [⟨[], [⟨none, .sym "Stack"⟩]⟩] = none := by decide

/-- Whether an outcome is this next state, as a Bool, so that `decide` can answer it. -/
def isNext (o : Host.Outcome State Fault Refusal) (t : State) : Bool :=
  match o with
  | .next u => decide (u = t)
  | _ => false

theorem eq_next_iff (o : Host.Outcome State Fault Refusal) (t : State) : o = .next t ↔ isNext o t = true := by
  cases o <;> simp [isNext]

/-! ## Witnesses: for each statement with hypotheses, states and operands that meet them, one for each clause -/

/-- `MEM_LIMIT = 16`, four cells loaded, `x[1]` preset. -/
def small (w x1 : Word) : State := start 16 (imageWith w) #v[0, x1, 7, 0, 0, 0, 0, 0]

/-- Encoding both ways: an instruction in bounds at the edges of its fields; a cell with bit 22 clear and one with it set. -/
theorem witness_DecodeEncodeRoundTrip : (Instr.beq 7 0 (-32768)).wellFormed = true ∧ (Instr.halt 7 7 65535).wellFormed = true ∧
    decode 0x00010002#32 = .ok (.add 0 1 2) ∧ (0x00010002#32).getLsbD 22 = false ∧
    decode 0x00410002#32 = .ok (.add 0 1 2) ∧ (0x00410002#32).getLsbD 22 = true := by decide
theorem witness_DecodedInstructionsAreInBounds : decode 0x037FFFFF#32 = .ok (.halt 7 7 65535) ∧
    decode 0x010A8000#32 = .ok (.lw 1 2 (-32768)) := by decide
/-- Tuples at the bounds that are accepted, and one beyond each bound. -/
theorem witness_EncoderAcceptsExactlyTheBounds : Fields.encode ⟨1, 7, 7, 7⟩ = some 0x00BF0007#32 ∧
    Fields.encode ⟨4, 0, 7, -32768⟩ = some 0x02078000#32 ∧ Fields.encode ⟨7, 7, 0, 65535⟩ = some 0x03B8FFFF#32 ∧
    Fields.encode ⟨-1, 0, 0, 0⟩ = none ∧ Fields.encode ⟨0, 0, 0, -1⟩ = none ∧ Fields.encode ⟨5, 0, 0, -1⟩ = none := by decide
/-- One cell for each row's match and mask, and one for each fault. -/
theorem witness_DecodeFollowsTheOpcodeTable : 0x007F0007#32 &&& 0xFF80FFF8#32 = 0x00000000#32 ∧
    0x00FF0007#32 &&& 0xFF80FFF8#32 = 0x00800000#32 ∧ 0x017FFFFF#32 &&& 0xFF800000#32 = 0x01000000#32 ∧
    0x01FFFFFF#32 &&& 0xFF800000#32 = 0x01800000#32 ∧ 0x027FFFFF#32 &&& 0xFF800000#32 = 0x02000000#32 ∧
    0x02FFFFFF#32 &&& 0xFF800000#32 = 0x02800000#32 ∧ 0x037FFFFF#32 &&& 0xFF800000#32 = 0x03000000#32 ∧
    0x03FFFFFF#32 &&& 0xFF800000#32 = 0x03800000#32 ∧ 0x04000000#32 &&& 0xFC000000#32 ≠ 0 ∧
    (0x00FF0008#32 &&& 0xFF000000#32 = 0 ∧ 0x00FF0008#32 &&& 0x0000FFF8#32 ≠ 0) := by decide
/-- Two cells of each kind that differ in ignored bits only, and what the Assembler supplies. -/
theorem witness_IgnoredBitsSelectNothing : 0x02BF0000#32 &&& 0xFF800000#32 = 0x02800000#32 ∧
    0x02BF0000#32 &&& 0xFFBF0000#32 = 0x02FFFFFF#32 &&& 0xFFBF0000#32 ∧
    0x03000000#32 &&& 0xFF800000#32 = 0x037FFFFF#32 &&& 0xFF800000#32 ∧
    0x03800000#32 &&& 0xFF800000#32 = 0x03FFFFFF#32 &&& 0xFF800000#32 ∧
    (Instr.jalr 7 7 65535).wellFormed = true ∧ (Instr.jalr 7 7 0).assemblerForm = true ∧
    (Instr.halt 0 0 0).assemblerForm = true ∧ (Instr.noop 0 0 0).assemblerForm = true := by decide
/-- The values 8 and 65535; a running machine whose pc is the first address beyond its image, and the last valid one. -/
theorem witness_DataThatDecodes : decode (BitVec.ofNat 32 8) = .error .fieldOutOfRange ∧
    decode (BitVec.ofNat 32 65535) = .error .fieldOutOfRange ∧
    (let s := { small 0 0 with pc := 4 };
      s.halted = false ∧ s.ValidAddr (s32 s.pc) ∧ (s.codeLen + s.stackLen : Int) ≤ s32 s.pc) ∧
    (let s := { small 0 0 with pc := 15 };
      s.halted = false ∧ s.ValidAddr (s32 s.pc) ∧ (s.codeLen + s.stackLen : Int) ≤ s32 s.pc) := by decide
/-- The fault at decode of an `add` and of a `nor`: the third field is 8, the least bad one, and 65535. -/
theorem witness_AddWritesTheWrappedSum : u32 0x00010008#32 / 2 ^ 23 = 0 ∧ 7 < u32 0x00010008#32 % 2 ^ 16 ∧
    (let s := small 0x00010008 0; s.halted = false ∧ s.ValidAddr (s32 s.pc) ∧ s.memRead (s32 s.pc).toNat = 0x00010008) := by decide
theorem witness_NorIsBitwiseOverThirtyTwoBits : u32 0x0081FFFF#32 / 2 ^ 23 = 1 ∧ 7 < u32 0x0081FFFF#32 % 2 ^ 16 ∧
    (let s := small 0x0081FFFF 0; s.halted = false ∧ s.ValidAddr (s32 s.pc) ∧ s.memRead (s32 s.pc).toNat = 0x0081FFFF) := by decide
/-- Effective addresses 0 and 15, valid; 4, the first beyond both regions; -1 and 16, the first invalid ones on either side. -/
theorem witness_LwLoadsTheAddressedCell :
    (0 ≤ s32 ((small 0 1).readReg 1) + (-1) ∧ s32 ((small 0 1).readReg 1) + (-1) < (small 0 1).config.memLimit) ∧
    (0 ≤ s32 ((small 0 4).readReg 1) + 11 ∧ s32 ((small 0 4).readReg 1) + 11 < (small 0 4).config.memLimit) ∧
    ((small 0 4).codeLen + (small 0 4).stackLen : Int) ≤ s32 ((small 0 4).readReg 1) + 0 ∧
    ¬ (0 ≤ s32 ((small 0 0).readReg 1) + (-1)) ∧
    ¬ (s32 ((small 0 4).readReg 1) + 12 < (small 0 4).config.memLimit) := by decide
/-- The same for a store: below `N + stack_len` the stack keeps its length (address 3), from it on it grows (address 4). -/
theorem witness_SwStoresOneCellAndGrowsTheStack :
    (0 ≤ s32 ((small 0 4).readReg 1) + (-1) ∧ s32 ((small 0 4).readReg 1) + (-1) < (small 0 4).config.memLimit) ∧
    s32 ((small 0 4).readReg 1) + (-1) < ((small 0 4).codeLen + (small 0 4).stackLen : Int) ∧
    ((small 0 4).codeLen + (small 0 4).stackLen : Int) ≤ s32 ((small 0 4).readReg 1) + 0 ∧
    ¬ (0 ≤ s32 ((small 0 0).readReg 1) + (-32768)) ∧
    ¬ (s32 ((small 0 16).readReg 1) + 0 < (small 0 16).config.memLimit) := by decide
/-- Equal patterns, unequal ones, and a taken branch of a running machine to the invalid address -1. -/
theorem witness_BeqBranchesOnEqualPatterns : (small 0 7).readReg 1 = (small 0 7).readReg 2 ∧
    (small 0 6).readReg 1 ≠ (small 0 6).readReg 2 ∧
    (let t := after (small 0x020AFFFE 7); (small 0x020AFFFE 7).halted = false ∧ t.pc = -1 ∧ ¬ t.ValidAddr (s32 t.pc)) := by decide
/-- Different registers, the same register, and a jump of a running machine to the invalid address 16. -/
theorem witness_JalrLinksThenJumps : (1 : RegIdx) ≠ 3 ∧ (2 : RegIdx) = 2 ∧
    (let t := after (small 0x028B0000 16); (small 0x028B0000 16).halted = false ∧ t.pc = 16 ∧ ¬ t.ValidAddr (s32 t.pc)) := by decide
theorem witness_HaltStopsOnePastItself : u32 0x03000000#32 / 2 ^ 23 = 6 ∧ u32 0x037FFFFF#32 / 2 ^ 23 = 6 := by decide
theorem witness_NoopOnlyAdvances : u32 0x03800000#32 / 2 ^ 23 = 7 ∧ u32 0x03FFFFFF#32 / 2 ^ 23 = 7 := by decide
/-- Parameters at both ends of their bounds; exact sums just below 0 and just at `2^31`. -/
theorem witness_EffectiveAddressNeverWraps : (small 0 0).config.wf ∧ (start (2 ^ 31) [] (.replicate 8 0)).config.wf ∧
    (let s := start (2 ^ 31) [] (.replicate 8 0x7FFFFFFF); ¬ (s32 (s.readReg 1) + 1 < 2 ^ 31)) ∧
    ¬ (0 ≤ s32 ((small 0 0).readReg 1) + (-1)) := by decide
/-- A halted machine; a bad pc on either side; each decode outcome at a valid pc. -/
theorem witness_StepRunsTheDecodedInstruction : ({ small 0 0 with halted := true } : State).halted = true ∧
    ((small 0 0).halted = false ∧ ¬ (0 ≤ s32 ({ small 0 0 with pc := -1 } : State).pc) ∧
      ¬ (s32 ({ small 0 0 with pc := 16 } : State).pc < (small 0 0).config.memLimit)) ∧
    (0 ≤ s32 (small 0 0).pc ∧ s32 (small 0 0).pc < (small 0 0).config.memLimit) ∧
    decode ((small 0x04000000 0).memRead (s32 (small 0x04000000 0).pc).toNat) = .error .opcodeOutOfRange ∧
    decode ((small 8 0).memRead (s32 (small 8 0).pc).toNat) = .error .fieldOutOfRange ∧
    decode ((small 7 0).memRead (s32 (small 7 0).pc).toNat) = .ok (.add 0 0 7) := by decide
theorem witness_StepIsAtomicAndNeverStuck : (small 0 0).halted = false ∧ (small 8 0).halted = false := by decide
/-- A running machine for each row of the table, with the status each leaves, and one that completes. -/
theorem witness_FaultCausesPriorityAndEntry : (small 0 0).Running ∧ step (small 0 0) = .next (after (small 0 0)) ∧
    (after (small 0 0)).faultCode = 0 ∧ (after { small 8 0 with pc := 16 }).faultCode = 3 ∧
    (after (small 0x04000000 0)).faultCode = 1 ∧ (after (small 0x00800008 0)).faultCode = 2 ∧
    (after (small 0x010AFFFF 0)).faultCode = 4 ∧ (after (small 0x018A000C 4)).faultCode = 4 := by
  unfold State.Running; simp only [eq_next_iff]; decide
theorem witness_HaltAndFaultAreTold :
    ((small 0x03000000 0).Running ∧ step (small 0x03000000 0) = .next (after (small 0x03000000 0)) ∧
      (after (small 0x03000000 0)).halted = true) ∧
    ((small 8 0).Running ∧ step (small 8 0) = .next (after (small 8 0)) ∧ (after (small 8 0)).halted = true) := by
  unfold State.Running; simp only [eq_next_iff]; decide
/-- A `jalr` and a taken `beq` that leave the pc elsewhere, the first at a bad target. -/
theorem witness_OnlyBeqAndJalrTransferControl :
    (let s := small 0x028B0000 16; let t := after s;
      s.Running ∧ exec (.jalr 1 3 0) s = .next t ∧ t.fault = none ∧ t.pc ≠ s.pc + 1 ∧ t.halted = false ∧ ¬ t.ValidAddr (s32 t.pc)) ∧
    (let s := small 0x020A0002 7; let t := after s;
      s.Running ∧ exec (.beq 1 2 2) s = .next t ∧ t.fault = none ∧ t.pc ≠ s.pc + 1) := by
  unfold State.Running; simp only [eq_next_iff]; decide
/-- A store of 7 (`add 0 0 7`) into the cell the next step fetches: the address is 1, one past the pc. -/
theorem witness_StoreIsSeenByTheNextFetch :
    let s := small 0x018A0000 1; let t := after s;
    s.halted = false ∧ (0 ≤ s32 (s.readReg 1) + 0 ∧ s32 (s.readReg 1) + 0 < s.config.memLimit) ∧ exec (.sw 1 2 0) s = .next t ∧
      s32 t.pc = s32 (s.readReg 1) + 0 ∧ decode (s.readReg 2) = .ok (.add 0 0 7) := by
  simp only [eq_next_iff]; decide
/-- Two states that differ in register 3, which `add 1 2 4` does not read. -/
theorem witness_RegistersReadAndWrittenAsTabled :
    let s := small 0 5; let s' := s.writeReg 3 9; let i := Instr.add 1 2 4;
    s.Running ∧ s.SameButRegs s' ∧ (∀ r ∈ regsRead i, s'.readReg r = s.readReg r) ∧ s.x ≠ s'.x ∧
      exec i s = .next ((s.writeReg 4 12).advance) ∧ exec i s' = .next ((s'.writeReg 4 12).advance) ∧
      regWritten i = some 4 ∧ regWritten i ≠ some 3 := by
  unfold State.Running State.SameButRegs; simp only [eq_next_iff]; decide
/-- A state of the invariant with a stack region, a faulted one, and their steps. -/
theorem witness_StepKeepsTheInvariant :
    (let s := after (small 0x018A0005 1); s.Inv ∧ s.stackLen = 3 ∧ step s = .next (after s)) ∧ (after (small 8 0)).Inv := by
  unfold State.Inv; simp only [eq_next_iff]; decide
theorem witness_ResetMeetsTheInvariant : Config.wf { memLimit := 1, image := [5] } ∧ Config.default.wf := by decide
/-- The two ends of the image, and the first address past it. -/
theorem witness_ResetGivesTheStatedValues : 0 < (small 0 0).config.image.length ∧ 3 < (small 0 0).config.image.length ∧
    (small 0 0).config.image.length ≤ 4 := by decide
theorem witness_OnlyResetLeavesHalted :
    (let s := after (small 8 0);
      s.halted = true ∧ s.fault ≠ none ∧ State.steps 2 s = .next s ∧ s.config = (small 8 0).config ∧ s ≠ small 8 0 ∧
        (s.load [5]).isSome = true) := by
  simp only [eq_next_iff]; decide
/-- A run of two steps, and the step of it that grows the stack. -/
theorem witness_StackRegionOnlyGrows :
    let s := small 0x018A0003 1; State.steps 2 s = .next (after (after s)) ∧ step s = .next (after s) ∧
      (after s).stackLen ≠ s.stackLen := by
  simp only [eq_next_iff]; decide
/-- Two states of the invariant that differ in `stack_len` alone, and their steps. -/
theorem witness_StackLengthIsUnobservable :
    let s := small 0x010A0009 1; let s' := { s with stackLen := 12 };
    s.Inv ∧ s'.Inv ∧ s.SameButStackLen s' ∧ s ≠ s' ∧ step s = .next (after s) ∧ step s' = .next (after s') := by
  unfold State.Inv State.SameButStackLen; simp only [eq_next_iff]; decide
/-- A run that ends normally and one that ends abnormally. -/
theorem witness_RunsEndByHaltOrByFault :
    (small 0x03000000 0).Running ∧ State.run 1 (small 0x03000000 0) = some (after (small 0x03000000 0)) ∧
      (after (small 0x03000000 0)).EndedNormally ∧ (small 8 0).Running ∧ State.run 1 (small 8 0) = some (after (small 8 0)) ∧
      (after (small 8 0)).EndedAbnormally := by
  unfold State.Running State.EndedNormally State.EndedAbnormally; decide
theorem witness_RunIsTheRepeatedStep : 1 ≤ 2 ∧ State.run 1 (small 0x03000000 0) = some (after (small 0x03000000 0)) := by decide
/-- An image that just fits, the ends of it, and one that is one word too long. -/
theorem witness_LoadInstallsTheImage : (List.replicate 16 (7 : Word)).length ≤ (small 0 0).config.memLimit ∧
    0 < (List.replicate 16 (7 : Word)).length ∧ 15 < (List.replicate 16 (7 : Word)).length ∧
    (small 0 0).config.memLimit < (List.replicate 17 (7 : Word)).length := by decide
theorem witness_DumpShowsTheWholeState :
    let s := after (small 0x018A0005 1); let t := ({ s with pc := 0 } : State).advance;
    s.Inv ∧ t.Inv ∧ s.config = t.config ∧ s.dump = t.dump := by
  unfold State.Inv; decide
/-- The last valid pc of a halted machine; and the pc of `State.reset`. -/
theorem witness_PlacedWordIsRunNext :
    (let s := { after (small 8 0) with pc := 15 }; s.ValidAddr (s32 s.pc)) ∧ State.reset.ValidAddr (s32 State.reset.pc) ∧
    decodeTableWord 32 0x00800001 = some (.nor 0 0 1) := by decide
/-- A label that is found, a line that encodes, and a state at its address with equal registers. -/
theorem witness_AssembledBranchReachesItsLabel : Assembler.Symbols.find [("loop", 3)] "loop" = some 3 ∧
    Assembler.CodeLine.fields ⟨none, "beq", [.num 3, .num 4, .sym "loop"]⟩ [("loop", 3)] 5 = some ⟨4, 3, 4, -3⟩ ∧
    Fields.encode ⟨4, 3, 4, -3⟩ = some 0x021CFFFD#32 ∧
    (let s := { small 0 0 with pc := 5 }; s.pc = BitVec.ofNat 32 5 ∧ s.readReg 3 = s.readReg 4) := by decide
theorem witness_ImageIsCodeThenDataThenStack :
    let ms : List Assembler.Module := [⟨[⟨none, "halt", []⟩], [⟨some "five", .num 5⟩]⟩];
    Assembler.link ms = some [⟨none, 0x03000000⟩, ⟨none, 5⟩, ⟨some "Stack", 0⟩] := by decide

end Sys2Proof.Tests
end

section
/-! PROOFS. The host's load and reset: what each leaves, and what the code/data region then reads (R37, R171 to R173). -/

namespace Sys2Proof.Machine

/-- An image of at most `MEM_LIMIT` words loads: `load` sets the cells, `N` and the stack length, and nothing else (R172). -/
theorem load_of_le {s : State} {image : List Word} (h : image.length ≤ s.config.memLimit) :
    s.load image =
      some { s with mem := Memory.ofCells 0 image, stackLen := 0, config := { s.config with image := image } } :=
  if_pos h

/-- A longer image is not loadable (R172). -/
theorem load_eq_none {s : State} {image : List Word} (h : s.config.memLimit < image.length) : s.load image = none :=
  if_neg (Nat.not_le.2 h)

@[simp] theorem hostReset_mem (s : State) : s.hostReset.mem = Memory.ofCells 0 s.config.image := rfl

/-- Where memory is the placed image, address `a` of the code/data region reads the image's word `a` (R29, R44). -/
theorem memRead_of_mem_eq_ofCells {s : State} (hmem : s.mem = Memory.ofCells 0 s.config.image) {a : Nat}
    (h : a < s.config.image.length) : s.memRead a = s.config.image[a] := by
  have hread : s.memRead a = Memory.read s.mem a := if_pos h
  rw [hread, hmem, Memory.read_ofCells]
  simp [h]

/-- Settles O32: load and the reset after it both leave the placed image as the memory, so both read back its words. -/
theorem loadInstallsTheImage : Obligations.LoadInstallsTheImage := by
  intro s image
  refine ⟨fun hle => ⟨_, load_of_le hle, rfl, rfl, fun k hk => ⟨?_, ?_⟩⟩, load_eq_none⟩
  · exact memRead_of_mem_eq_ofCells rfl hk
  · exact memRead_of_mem_eq_ofCells (hostReset_mem _) hk

end Sys2Proof.Machine
end

section
/-! PROOFS. What each instruction does to a state, and what an instruction and a step can do at all: the equations and the inversion
lemmas that the proofs about instructions, steps and runs cite (R90 to R131, R146). -/

namespace Sys2Proof.Machine

/-! ## The eight instructions -/

section
variable (a0 a1 a2 : RegIdx) (d : Int) (k : Nat) (s : State)

/-- R100, the sum taken modulo 2^32 (R102). -/
theorem exec_add : exec (.add a0 a1 a2) s = .next (s.writeReg a2 (s.readReg a0 + s.readReg a1)).advance := by
  rw [← aluAdd_eq]
  rfl

/-- R101. -/
theorem exec_nor : exec (.nor a0 a1 a2) s = .next (s.writeReg a2 (aluNor (s.readReg a0) (s.readReg a1))).advance := rfl

/-- R110. -/
theorem exec_lw : exec (.lw a0 a1 d) s =
    .next (s.accessing (effectiveAddress (s.readReg a0) d) fun ea => (s.writeReg a1 (s.memRead ea)).advance) := rfl

/-- R111. -/
theorem exec_sw : exec (.sw a0 a1 d) s =
    .next (s.accessing (effectiveAddress (s.readReg a0) d) fun ea => (s.memWrite ea (s.readReg a1)).advance) := rfl

/-- R120, the branch and the common increment in one assignment to the pc. -/
theorem exec_beq : exec (.beq a0 a1 d) s =
    .next { s with pc := if s.readReg a0 = s.readReg a1 then s.pc + 1 + BitVec.ofInt 32 d else s.pc + 1 } := by
  rw [← nextPc_branchPc, ← nextPc_eq]
  change Host.Outcome.next _ = _
  split <;> rfl

/-- R121, the jump and the common increment in one assignment to the pc, after the link write. -/
theorem exec_jalr : exec (.jalr a0 a1 k) s = .next { s.link a1 with pc := (s.link a1).readReg a0 } := by
  rw [← nextPc_jumpPc ((s.link a1).readReg a0)]
  rfl

/-- R130. -/
theorem exec_halt : exec (.halt a0 a1 k) s = .next s.setHalted.advance := rfl

/-- R131. -/
theorem exec_noop : exec (.noop a0 a1 k) s = .next s.advance := rfl

end

/-- The link write is the write of the next instruction's address (R121). -/
theorem link_eq_writeReg (s : State) (i : RegIdx) : s.link i = s.writeReg i (s.pc + 1) := by
  rw [← nextPc_eq]
  rfl

/-! ## What an instruction can do -/

/-- Data accesses at one address from two states with the same parameters end alike: both effects, or both faults. -/
theorem accessing_rel {R : State → State → Prop} {s s' : State} {ea : Int} {f f' : Nat → State} (hcfg : s'.config = s.config)
    (heffect : ∀ a, R (f a) (f' a)) (hraise : ∀ c, R (s.raise c) (s'.raise c)) :
    R (s.accessing ea f) (s'.accessing ea f') := by
  have hvalid : s'.ValidAddr ea ↔ s.ValidAddr ea := by rw [State.ValidAddr, hcfg]
  unfold State.accessing
  simp only [hvalid]
  split
  · exact heffect _
  · exact hraise _

/-- Every instruction answers a next state. -/
theorem exec_total (i : Instr) (s : State) : ∃ t, exec i s = .next t := by
  cases i <;> exact ⟨_, rfl⟩

/-- All that an instruction can do to a state: enter a fault, set the halt flag and advance (a `halt`), write one cell at a valid address
and advance (a `sw`), or change registers and pc only. -/
theorem exec_effect {i : Instr} {s t : State} (h : exec i s = .next t) :
    (∃ c, t = s.raise c) ∨
    (∃ a0 a1 a2, i = .halt a0 a1 a2 ∧ t = s.setHalted.advance) ∨
    (∃ a0 a1 d, i = .sw a0 a1 d ∧ s.ValidAddr (effectiveAddress (s.readReg a0) d) ∧
      t = (s.memWrite (effectiveAddress (s.readReg a0) d).toNat (s.readReg a1)).advance) ∨
    (∃ x pc, t = { s with x := x, pc := pc }) := by
  cases i with
  | add | nor | jalr | noop => cases h; exact .inr (.inr (.inr ⟨_, _, rfl⟩))
  | beq a0 a1 d =>
    rw [exec_beq] at h
    cases h
    exact .inr (.inr (.inr ⟨_, _, rfl⟩))
  | lw a0 a1 d =>
    rw [exec_lw] at h
    cases h
    rcases accessing_cases s (effectiveAddress (s.readReg a0) d) fun ea => (s.writeReg a1 (s.memRead ea)).advance
      with ⟨-, heq⟩ | ⟨-, heq⟩
    · exact .inr (.inr (.inr ⟨_, _, heq⟩))
    · exact .inl ⟨_, heq⟩
  | sw a0 a1 d =>
    rw [exec_sw] at h
    cases h
    rcases accessing_cases s (effectiveAddress (s.readReg a0) d) fun ea => (s.memWrite ea (s.readReg a1)).advance
      with ⟨hv, heq⟩ | ⟨-, heq⟩
    · exact .inr (.inr (.inl ⟨a0, a1, d, rfl, hv, heq⟩))
    · exact .inl ⟨_, heq⟩
  | halt a0 a1 k => cases h; exact .inr (.inl ⟨a0, a1, k, rfl, rfl⟩)

/-! ## What a step can do -/

theorem step_of_fetchDecode_error {s : State} {c : FaultCause} (hrun : s.halted = false) (hfd : s.fetchDecode = .error c) :
    step s = .next (s.raise c) := by
  simp [step, hrun, hfd]

theorem step_of_fetchDecode_ok {s : State} {i : Instr} (hrun : s.halted = false) (hfd : s.fetchDecode = .ok i) :
    step s = exec i s := by
  simp [step, hrun, hfd]

/-- Where a step's next state comes from (R90): the halted machine's own state, the entry of a fault of fetch or decode, or the execution
of the instruction fetched. -/
theorem step_inversion {s t : State} (h : step s = .next t) :
    (s.halted = true ∧ t = s) ∨
    (s.halted = false ∧ ∃ c, s.fetchDecode = .error c ∧ t = s.raise c) ∨
    (s.halted = false ∧ ∃ i, s.fetchDecode = .ok i ∧ exec i s = .next t) := by
  cases hrun : s.halted with
  | true =>
    rw [step_of_halted hrun] at h
    cases h
    exact .inl ⟨rfl, rfl⟩
  | false =>
    cases hfd : s.fetchDecode with
    | error c =>
      rw [step_of_fetchDecode_error hrun hfd] at h
      cases h
      exact .inr (.inl ⟨rfl, c, rfl, rfl⟩)
    | ok i =>
      rw [step_of_fetchDecode_ok hrun hfd] at h
      exact .inr (.inr ⟨rfl, i, rfl, h⟩)

/-- Every step answers a next state (R95, R182). -/
theorem step_total (s : State) : ∃ t, step s = .next t := by
  cases hrun : s.halted with
  | true => exact ⟨s, step_of_halted hrun⟩
  | false =>
    rcases step_cases hrun with ⟨c, -, h⟩ | ⟨i, -, h⟩
    · exact ⟨_, h⟩
    · rw [h]
      exact exec_total i s

/-! ## What many steps can do -/

/-- A relation that holds of a state with itself, and passes from the rest of a run to the run with one step before it, holds along every
run. -/
theorem steps_induction {R : State → State → Prop} (hrefl : ∀ s, R s s)
    (hstep : ∀ s u t, step s = .next u → R u t → R s t) (k : Nat) :
    ∀ s t, State.steps k s = .next t → R s t := by
  induction k with
  | zero =>
    intro s t h
    cases h
    exact hrefl s
  | succ k ih =>
    intro s t h
    obtain ⟨u, hu⟩ := step_total s
    rw [steps_succ hu] at h
    exact hstep s u t hu (ih u t h)

end Sys2Proof.Machine
end

section
/-! PROOFS. The invariant of the reachable states: reset meets it, every step keeps it, and no step changes the parameters or shrinks the
stack region (R20, R29, R30, R42, R45). -/

namespace Sys2Proof.Machine

/-! ## Keeping the invariant -/

/-- A fault status implies Halted (R27, R162). -/
theorem State.Inv.halted_of_fault {s : State} (hs : s.Inv) (hfault : s.fault ≠ none) : s.halted = true := by
  obtain ⟨-, -, -, -, hstatus⟩ := hs
  exact hstatus hfault

/-- Memory is in its canonical form (R20). -/
theorem State.Inv.mem_wf {s : State} (hs : s.Inv) : Memory.wf s.mem := by
  obtain ⟨-, hcanon, -⟩ := hs
  exact hcanon

/-- Every address that is listed is inside the two regions (R30). -/
theorem State.Inv.listed_lt {s : State} (hs : s.Inv) {c : Nat × Word} (hc : c ∈ s.mem) : c.1 < s.codeLen + s.stackLen := by
  obtain ⟨-, -, hlisted, -⟩ := hs
  exact hlisted c hc

/-- The invariant of a state that has the memory, the stack length and the parameters of one that meets it. -/
theorem State.Inv.of_sameStorage {s t : State} (hs : s.Inv) (hmem : t.mem = s.mem) (hlen : t.stackLen = s.stackLen)
    (hcfg : t.config = s.config) (hstatus : t.fault ≠ none → t.halted = true) : t.Inv := by
  obtain ⟨hwf, hcanon, hlisted, hfits, -⟩ := hs
  refine ⟨?_, ?_, ?_, ?_, hstatus⟩ <;> simpa only [hmem, hlen, hcfg, State.codeLen]

@[simp] theorem memWrite_codeLen (s : State) (a : Nat) (v : Word) : (s.memWrite a v).codeLen = s.codeLen := by
  simp only [State.codeLen, memWrite_config]

/-- A write at a valid address keeps the invariant: where the address is beyond the stack region, the region grows to include it and still
fits the address space (R45). -/
theorem State.Inv.memWrite {s : State} (hs : s.Inv) {a : Nat} (ha : a < s.config.memLimit) (v : Word) :
    (s.memWrite a v).Inv := by
  obtain ⟨hwf, hcanon, hlisted, hfits, hstatus⟩ := hs
  refine ⟨by simpa using hwf, memWrite_wf hcanon a v, fun c hc => ?_, ?_, by simpa using hstatus⟩
  · rw [memWrite_codeLen, memWrite_stackLen]
    rcases memWrite_listed hc with hold | hnew
    · have := hlisted c hold
      split <;> omega
    · split <;> omega
  · rw [memWrite_codeLen, memWrite_config, memWrite_stackLen]
    have hN : s.codeLen ≤ s.config.memLimit := hwf.1
    split <;> omega

/-- Every instruction keeps the invariant. -/
theorem State.Inv.exec {i : Instr} {s t : State} (hs : s.Inv) (h : exec i s = .next t) : t.Inv := by
  rcases exec_effect h with ⟨c, rfl⟩ | ⟨a0, a1, a2, -, rfl⟩ | ⟨a0, a1, d, -, hvalid, rfl⟩ | ⟨x, pc, rfl⟩
  · exact hs.of_sameStorage rfl rfl rfl fun _ => rfl
  · exact hs.of_sameStorage rfl rfl rfl fun _ => rfl
  · have ha : (effectiveAddress (s.readReg a0) d).toNat < s.config.memLimit := by
      obtain ⟨hlo, hhi⟩ := hvalid
      omega
    exact (hs.memWrite ha _).of_sameStorage rfl rfl rfl (by simpa using hs.halted_of_fault)
  · exact hs.of_sameStorage rfl rfl rfl hs.halted_of_fault

/-- Settles O24: a halted machine's step changes nothing, a fault's entry sets both status values, and execution keeps the invariant. -/
theorem stepKeepsTheInvariant : Obligations.StepKeepsTheInvariant := by
  intro s t hs h
  rcases step_inversion h with ⟨-, rfl⟩ | ⟨-, c, -, rfl⟩ | ⟨-, i, -, hexec⟩
  · exact hs
  · exact hs.of_sameStorage rfl rfl rfl fun _ => rfl
  · exact hs.exec hexec

/-- Settles O25: the placed image is canonical and lists addresses below `N` only; the default parameters place no cell. -/
theorem resetMeetsTheInvariant : Obligations.ResetMeetsTheInvariant := by
  refine ⟨fun c hc => ⟨hc, Memory.wf_ofCells 0 c.image, fun d hd => ?_, hc.1, fun h => absurd rfl h⟩, rfl⟩
  simpa [State.resetWith] using (Memory.mem_ofCells hd).2

/-! ## The parameters and the stack region along a run -/

/-- An instruction leaves the parameters, and leaves the stack length too or is a `sw` beyond the stack region, which grows it (R45). -/
theorem exec_config_stackLen {i : Instr} {s t : State} (h : exec i s = .next t) :
    t.config = s.config ∧ (t.stackLen = s.stackLen ∨ s.stackLen < t.stackLen ∧
      ∃ a0 a1 d, i = .sw a0 a1 d ∧ (s.codeLen + s.stackLen : Int) ≤ effectiveAddress (s.readReg a0) d) := by
  rcases exec_effect h with ⟨c, rfl⟩ | ⟨a0, a1, a2, -, rfl⟩ | ⟨a0, a1, d, rfl, ⟨hlo, -⟩, rfl⟩ | ⟨x, pc, rfl⟩
  · exact ⟨rfl, .inl rfl⟩
  · exact ⟨rfl, .inl rfl⟩
  · refine ⟨memWrite_config .., ?_⟩
    rw [advance_stackLen, memWrite_stackLen]
    split
    · exact .inr ⟨by omega, a0, a1, d, rfl, by omega⟩
    · exact .inl rfl
  · exact ⟨rfl, .inl rfl⟩

/-- The same of a step. -/
theorem step_config_stackLen {s t : State} (h : step s = .next t) :
    t.config = s.config ∧ (t.stackLen = s.stackLen ∨ s.stackLen < t.stackLen ∧
      ∃ a0 a1 d, s.fetchDecode = .ok (.sw a0 a1 d) ∧ (s.codeLen + s.stackLen : Int) ≤ effectiveAddress (s.readReg a0) d) := by
  rcases step_inversion h with ⟨-, rfl⟩ | ⟨-, c, -, rfl⟩ | ⟨-, i, hfd, hexec⟩
  · exact ⟨rfl, .inl rfl⟩
  · exact ⟨rfl, .inl rfl⟩
  · rw [hfd]
    simpa using exec_config_stackLen hexec

/-- Settles O28: each step leaves the parameters and grows the stack region or leaves it, so every run does. -/
theorem stackRegionOnlyGrows : Obligations.StackRegionOnlyGrows := by
  refine ⟨fun k => ?_, fun s t h hne => ?_⟩
  · refine steps_induction (R := fun s t => t.config = s.config ∧ s.stackLen ≤ t.stackLen) (fun s => ⟨rfl, le_rfl⟩) ?_ k
    rintro s u t hstep ⟨hcfg, hlen⟩
    obtain ⟨hcfg', hgrow⟩ := step_config_stackLen hstep
    exact ⟨hcfg.trans hcfg', by omega⟩
  · obtain ⟨-, hsame | ⟨-, hsw⟩⟩ := step_config_stackLen h
    · exact absurd hsame hne
    · exact hsw

end Sys2Proof.Machine
end

section
/-! PROOFS. The stack length is unobservable: memory reads and writes as one total array, and two states of the invariant that differ in
the stack length alone take the same step (R31, R44, R45). -/

namespace Sys2Proof.Machine

/-! ## Memory as one total array -/

/-- In a state of the invariant the region checks of a read never matter: beyond both regions nothing is listed. -/
theorem State.Inv.memRead_eq {s : State} (hs : s.Inv) (a : Nat) : s.memRead a = Memory.read s.mem a := by
  by_cases ha : s.codeLen + s.stackLen ≤ a
  · rw [memRead_beyond ha]
    refine (Memory.read_of_not_listed fun c hc => ?_).symm
    have := hs.listed_lt hc
    omega
  · unfold State.memRead
    split
    · rfl
    · exact if_pos (by omega)

/-- In a state of the invariant a growth zero-fills nothing that was listed, so every write is the write of the one cell. -/
theorem State.Inv.memWrite_mem {s : State} (hs : s.Inv) (a : Nat) (v : Word) :
    (s.memWrite a v).mem = Memory.write s.mem a v := by
  have hfill : Memory.zeroFill s.mem (s.codeLen + s.stackLen) a = s.mem :=
    List.filter_eq_self.2 fun c hc => by simp [hs.listed_lt hc]
  unfold State.memWrite
  split_ifs
  · rfl
  · rfl
  · exact congrArg (Memory.write · a v) hfill

/-! ## States that differ in the stack length alone -/

namespace State.SameButStackLen

variable {s s' : State} (h : s.SameButStackLen s')
include h

theorem config_eq : s'.config = s.config := by
  obtain ⟨-, -, -, -, -, hcfg⟩ := h
  exact hcfg

theorem pc_eq : s'.pc = s.pc := by
  obtain ⟨-, hpc, -⟩ := h
  exact hpc

theorem halted_eq : s'.halted = s.halted := by
  obtain ⟨-, -, hhalted, -⟩ := h
  exact hhalted

theorem readReg_eq (r : RegIdx) : s'.readReg r = s.readReg r := by
  obtain ⟨hx, -⟩ := h
  rw [State.readReg, State.readReg, hx]

theorem memRead_eq (hs : s.Inv) (hs' : s'.Inv) (a : Nat) : s'.memRead a = s.memRead a := by
  obtain ⟨-, -, -, -, hmem, -⟩ := h
  rw [hs.memRead_eq, hs'.memRead_eq, hmem]

theorem writeReg (r : RegIdx) (v : Word) : (s.writeReg r v).SameButStackLen (s'.writeReg r v) := by
  obtain ⟨hx, hrest⟩ := h
  exact ⟨by rw [State.writeReg, State.writeReg, hx], hrest⟩

theorem withPc (pc : Word) : ({ s with pc := pc } : State).SameButStackLen { s' with pc := pc } := by
  obtain ⟨hx, -, hrest⟩ := h
  exact ⟨hx, rfl, hrest⟩

theorem advance : s.advance.SameButStackLen s'.advance := by
  rw [State.advance, State.advance, h.pc_eq]
  exact h.withPc _

theorem setHalted : s.setHalted.SameButStackLen s'.setHalted := by
  obtain ⟨hx, hpc, -, hrest⟩ := h
  exact ⟨hx, hpc, rfl, hrest⟩

theorem raise (c : FaultCause) : (s.raise c).SameButStackLen (s'.raise c) := by
  obtain ⟨hx, hpc, -, -, hrest⟩ := h
  exact ⟨hx, hpc, rfl, rfl, hrest⟩

theorem memWrite (hs : s.Inv) (hs' : s'.Inv) (a : Nat) (v : Word) : (s.memWrite a v).SameButStackLen (s'.memWrite a v) := by
  obtain ⟨hx, hpc, hhalted, hfault, hmem, hcfg⟩ := h
  refine ⟨by simpa, by simpa, by simpa, by simpa, ?_, by simpa⟩
  rw [hs.memWrite_mem, hs'.memWrite_mem, hmem]

/-- Both states fetch and decode the same instruction, or meet the same fault. -/
theorem fetchDecode_eq (hs : s.Inv) (hs' : s'.Inv) : s'.fetchDecode = s.fetchDecode := by
  simp only [State.fetchDecode, State.fetch, State.ValidAddr, h.config_eq, h.pc_eq, h.memRead_eq hs hs']

/-- No instruction observes the stack length. -/
theorem exec (hs : s.Inv) (hs' : s'.Inv) {i : Instr} {t t' : State} (ht : Machine.exec i s = .next t)
    (ht' : Machine.exec i s' = .next t') :
    t.SameButStackLen t' := by
  cases i with
  | add | nor =>
    simp only [exec_add, exec_nor, h.readReg_eq] at ht ht'
    cases ht; cases ht'
    exact (h.writeReg _ _).advance
  | lw =>
    simp only [exec_lw, h.readReg_eq, h.memRead_eq hs hs'] at ht ht'
    cases ht; cases ht'
    exact accessing_rel h.config_eq (fun a => (h.writeReg _ _).advance) h.raise
  | sw =>
    simp only [exec_sw, h.readReg_eq] at ht ht'
    cases ht; cases ht'
    exact accessing_rel h.config_eq (fun a => (h.memWrite hs hs' _ _).advance) h.raise
  | beq =>
    simp only [exec_beq, h.readReg_eq, h.pc_eq] at ht ht'
    cases ht; cases ht'
    exact h.withPc _
  | jalr =>
    simp only [exec_jalr, link_eq_writeReg, h.pc_eq, (h.writeReg _ _).readReg_eq] at ht ht'
    cases ht; cases ht'
    exact (h.writeReg _ _).withPc _
  | halt =>
    cases ht; cases ht'
    exact h.setHalted.advance
  | noop =>
    cases ht; cases ht'
    exact h.advance

/-- No step observes the stack length. -/
theorem step (hs : s.Inv) (hs' : s'.Inv) {t t' : State} (ht : Machine.step s = .next t)
    (ht' : Machine.step s' = .next t') :
    t.SameButStackLen t' := by
  cases hrun : s.halted with
  | true =>
    rw [step_of_halted hrun] at ht
    rw [step_of_halted (h.halted_eq.trans hrun)] at ht'
    cases ht; cases ht'
    exact h
  | false =>
    have hrun' := h.halted_eq.trans hrun
    have hfd' := h.fetchDecode_eq hs hs'
    cases hfd : s.fetchDecode with
    | error c =>
      rw [step_of_fetchDecode_error hrun hfd] at ht
      rw [step_of_fetchDecode_error hrun' (hfd'.trans hfd)] at ht'
      cases ht; cases ht'
      exact h.raise c
    | ok i =>
      rw [step_of_fetchDecode_ok hrun hfd] at ht
      rw [step_of_fetchDecode_ok hrun' (hfd'.trans hfd)] at ht'
      exact h.exec hs hs' ht ht'

end State.SameButStackLen

/-- Settles O29: reads and writes act on one total array, so both states take the same step. -/
theorem stackLengthIsUnobservable : Obligations.StackLengthIsUnobservable :=
  ⟨fun _ hs => hs.memRead_eq, fun _ _ _ _ hs hs' h ht ht' => h.step hs hs' ht ht'⟩

end Sys2Proof.Machine
end

section
/-! PROOFS. The table of registers read and written: two states that differ in registers alone, executed together, and the register frame
(R21, R23). -/

namespace Sys2Proof.Machine

/-! ## States that differ in registers alone -/

namespace State.SameButRegs

variable {s s' : State} (h : s.SameButRegs s')
include h

theorem pc_eq : s'.pc = s.pc := by
  obtain ⟨hpc, -⟩ := h
  exact hpc

theorem config_eq : s'.config = s.config := by
  obtain ⟨-, -, -, -, -, hcfg⟩ := h
  exact hcfg

theorem memRead_eq (a : Nat) : s'.memRead a = s.memRead a := by
  obtain ⟨-, -, -, hmem, hlen, hcfg⟩ := h
  exact memRead_congr hmem hlen hcfg a

theorem writeReg (r r' : RegIdx) (v v' : Word) : (s.writeReg r v).SameButRegs (s'.writeReg r' v') := h

theorem withPc (pc : Word) : ({ s with pc := pc } : State).SameButRegs { s' with pc := pc } := by
  obtain ⟨-, hrest⟩ := h
  exact ⟨rfl, hrest⟩

theorem advance : s.advance.SameButRegs s'.advance := by
  rw [State.advance, State.advance, h.pc_eq]
  exact h.withPc _

theorem setHalted : s.setHalted.SameButRegs s'.setHalted := by
  obtain ⟨hpc, -, hrest⟩ := h
  exact ⟨hpc, rfl, hrest⟩

theorem raise (c : FaultCause) : (s.raise c).SameButRegs (s'.raise c) := by
  obtain ⟨hpc, -, -, hrest⟩ := h
  exact ⟨hpc, rfl, rfl, hrest⟩

theorem memWrite (a : Nat) (v : Word) : (s.memWrite a v).SameButRegs (s'.memWrite a v) := by
  obtain ⟨hpc, hhalted, hfault, hmem, hlen, hcfg⟩ := h
  refine ⟨by simpa, by simpa, by simpa, ?_, ?_, by simpa⟩
  · simp only [State.memWrite, State.codeLen, hmem, hlen, hcfg]
    split_ifs <;> rfl
  · simp only [memWrite_stackLen, State.codeLen, hlen, hcfg]

/-- What an instruction does to everything but the registers depends only on the registers it reads. -/
theorem exec {i : Instr} {t t' : State} (hread : ∀ r ∈ regsRead i, s'.readReg r = s.readReg r)
    (ht : Machine.exec i s = .next t) (ht' : Machine.exec i s' = .next t') : t.SameButRegs t' := by
  cases i with
  | add | nor =>
    cases ht; cases ht'
    exact (h.writeReg _ _ _ _).advance
  | lw a0 a1 d =>
    have h0 : s'.readReg a0 = s.readReg a0 := by simpa [regsRead] using hread
    rw [exec_lw] at ht
    rw [exec_lw, h0] at ht'
    cases ht; cases ht'
    exact accessing_rel h.config_eq (fun a => (h.writeReg _ _ _ _).advance) h.raise
  | sw a0 a1 d =>
    obtain ⟨h0, h1⟩ : s'.readReg a0 = s.readReg a0 ∧ s'.readReg a1 = s.readReg a1 := by simpa [regsRead] using hread
    rw [exec_sw] at ht
    rw [exec_sw, h0, h1] at ht'
    cases ht; cases ht'
    exact accessing_rel h.config_eq (fun a => (h.memWrite _ _).advance) h.raise
  | beq a0 a1 d =>
    obtain ⟨h0, h1⟩ : s'.readReg a0 = s.readReg a0 ∧ s'.readReg a1 = s.readReg a1 := by simpa [regsRead] using hread
    rw [exec_beq] at ht
    rw [exec_beq, h0, h1, h.pc_eq] at ht'
    cases ht; cases ht'
    exact h.withPc _
  | jalr a0 a1 k =>
    have h0 : s'.readReg a0 = s.readReg a0 := by simpa [regsRead] using hread
    have htarget : (s'.link a1).readReg a0 = (s.link a1).readReg a0 := by
      simp only [link_eq_writeReg, readReg_writeReg, h0, h.pc_eq]
    rw [exec_jalr] at ht
    rw [exec_jalr, htarget] at ht'
    cases ht; cases ht'
    exact (h.writeReg _ _ _ _).withPc _
  | halt =>
    cases ht; cases ht'
    exact h.setHalted.advance
  | noop =>
    cases ht; cases ht'
    exact h.advance

/-- The value an instruction that raises no fault writes depends only on the registers it reads. -/
theorem exec_readReg {i : Instr} {t t' : State} (hread : ∀ r ∈ regsRead i, s'.readReg r = s.readReg r)
    (ht : Machine.exec i s = .next t) (ht' : Machine.exec i s' = .next t') {r : RegIdx} (hr : regWritten i = some r)
    (hfault : t.fault = none) : t'.readReg r = t.readReg r := by
  cases i with
  | add a0 a1 a2 | nor a0 a1 a2 =>
    obtain ⟨h0, h1⟩ : s'.readReg a0 = s.readReg a0 ∧ s'.readReg a1 = s.readReg a1 := by simpa [regsRead] using hread
    simp only [exec_add, exec_nor, h0, h1] at ht ht'
    cases hr; cases ht; cases ht'
    simp
  | lw a0 a1 d =>
    have h0 : s'.readReg a0 = s.readReg a0 := by simpa [regsRead] using hread
    simp only [exec_lw, h0, h.memRead_eq] at ht ht'
    cases hr; cases ht; cases ht'
    revert hfault
    exact accessing_rel (R := fun t t' => t.fault = none → t'.readReg r = t.readReg r) h.config_eq (by simp) (by simp)
  | jalr a0 a1 k =>
    cases hr; cases ht; cases ht'
    change (s'.link r).readReg r = (s.link r).readReg r
    simp [link_eq_writeReg, h.pc_eq]
  | sw | beq | halt | noop => cases hr

end State.SameButRegs

/-- An instruction changes no register but the one the table says it writes (R23). -/
theorem readReg_exec_of_not_written {i : Instr} {s t : State} {r : RegIdx} (ht : exec i s = .next t)
    (hr : regWritten i ≠ some r) : t.readReg r = s.readReg r := by
  cases i with
  | add a0 a1 d | nor a0 a1 d =>
    cases ht
    exact readReg_writeReg_of_ne s _ fun h => hr (congrArg some h.symm)
  | jalr a0 d k =>
    cases ht
    exact readReg_writeReg_of_ne s _ fun h => hr (congrArg some h.symm)
  | lw a0 d a2 =>
    rw [exec_lw] at ht
    cases ht
    rcases accessing_cases s (effectiveAddress (s.readReg a0) a2) fun ea => (s.writeReg d (s.memRead ea)).advance
      with ⟨-, heq⟩ | ⟨-, heq⟩
    · rw [heq]
      exact readReg_writeReg_of_ne s _ fun h => hr (congrArg some h.symm)
    · rw [heq, readReg_raise]
  | sw a0 a1 a2 =>
    rw [exec_sw] at ht
    cases ht
    rcases accessing_cases s (effectiveAddress (s.readReg a0) a2) fun ea => (s.memWrite ea (s.readReg a1)).advance
      with ⟨-, heq⟩ | ⟨-, heq⟩
    · rw [heq, readReg_advance, readReg_memWrite]
    · rw [heq, readReg_raise]
  | beq =>
    rw [exec_beq] at ht
    cases ht
    rfl
  | halt | noop =>
    cases ht
    rfl

/-- Settles O23: the frame by the instruction, and both halves of the dependence by following the two executions together. -/
theorem registersReadAndWrittenAsTabled : Obligations.RegistersReadAndWrittenAsTabled :=
  ⟨fun _ _ _ _ => readReg_exec_of_not_written, fun _ _ _ _ _ _ h hread ht ht' =>
    ⟨h.exec hread ht ht', fun _ hr hfault => h.exec_readReg hread ht ht' hr hfault⟩⟩

end Sys2Proof.Machine
end

section
/-! PROOFS. How a run ends: by a `halt`, one past which the pc is, or by the entry of a fault (R96, R97, R130, R146). -/

namespace Sys2Proof.Machine

/-- A step from a running state completes and leaves it running, executes a `halt`, or enters a fault. -/
theorem step_of_running {s t : State} (hrun : s.Running) (h : step s = .next t) :
    t.Running ∨ (∃ a0 a1 a2, s.fetchDecode = .ok (.halt a0 a1 a2) ∧ t = s.setHalted.advance) ∨ ∃ c, t = s.raise c := by
  rcases step_inversion h with ⟨hhalted, rfl⟩ | ⟨-, c, -, rfl⟩ | ⟨-, i, hfd, hexec⟩
  · exact .inl hrun
  · exact .inr (.inr ⟨c, rfl⟩)
  · rcases exec_effect hexec with ⟨c, rfl⟩ | ⟨a0, a1, a2, rfl, rfl⟩ | ⟨a0, a1, d, -, -, rfl⟩ | ⟨x, pc, rfl⟩
    · exact .inr (.inr ⟨c, rfl⟩)
    · exact .inr (.inl ⟨a0, a1, a2, hfd, rfl⟩)
    · exact .inl (by simpa [State.Running] using hrun)
    · exact .inl hrun

/-- A running machine's run is one step and the rest of the run, with one unit of fuel less (R96). -/
theorem run_succ_of_running {s u : State} (hrun : s.Running) (h : step s = .next u) (n : Nat) :
    State.run (n + 1) s = State.run n u := by
  obtain ⟨hhalted, -⟩ := hrun
  simp [State.run, hhalted, h]

theorem run_of_halted {s : State} (h : s.halted = true) (n : Nat) : State.run n s = some s := by
  cases n <;> simp [State.run, h]

/-- A run from a running state that ends came to its end by a last step, from a running state it reached, that was a `halt` or entered a
fault. -/
theorem run_last_step {n : Nat} {s t : State} (hrun : s.Running) (h : State.run n s = some t) :
    ∃ k u, k < n ∧ State.steps k s = .next u ∧ u.Running ∧ step u = .next t ∧
      ((∃ a0 a1 a2, u.fetchDecode = .ok (.halt a0 a1 a2) ∧ t = u.setHalted.advance) ∨ ∃ c, t = u.raise c) := by
  induction n generalizing s with
  | zero => simp [State.run, hrun.1] at h
  | succ n ih =>
    obtain ⟨u, hu⟩ := step_total s
    rw [run_succ_of_running hrun hu] at h
    rcases step_of_running hrun hu with hrun' | hend
    · obtain ⟨k, v, hk, hsteps, hlast⟩ := ih hrun' h
      exact ⟨k + 1, v, by omega, by rw [steps_succ hu, hsteps], hlast⟩
    · have hhalted : u.halted = true := by
        obtain ⟨a0, a1, a2, -, rfl⟩ | ⟨c, rfl⟩ := hend <;> rfl
      rw [run_of_halted hhalted] at h
      cases h
      exact ⟨0, s, by omega, rfl, hrun, hu, hend⟩

/-- Settles O30: a last step that was a `halt` leaves no fault status, and one that entered a fault leaves one. -/
theorem runsEndByHaltOrByFault : Obligations.RunsEndByHaltOrByFault := by
  intro n s t hrun h
  obtain ⟨k, u, hk, hsteps, hu, hstep, hend⟩ := run_last_step hrun h
  obtain ⟨a0, a1, a2, hfd, rfl⟩ | ⟨c, rfl⟩ := hend
  · refine ⟨rfl, k, u, hk, hsteps, hu, hstep, fun _ => ⟨nextPc_eq u.pc, a0, a1, a2, hfd⟩, fun habnormal => ?_⟩
    obtain ⟨-, hfault⟩ := habnormal
    exact absurd hu.2 hfault
  · refine ⟨rfl, k, u, hk, hsteps, hu, hstep, fun hnormal => ?_, fun _ => rfl⟩
    obtain ⟨-, hnone⟩ := hnormal
    cases hnone

end Sys2Proof.Machine
end

section
/-! PROOFS. The dump shows the whole state (R20, R37, R177). -/

namespace Sys2Proof.Machine

/-- No cause has the code 0, which says that there is no fault (R27). -/
theorem FaultCause.code_ne_zero (c : FaultCause) : c.code ≠ 0 := by cases c <;> decide

/-- The codes tell the causes apart (R141). -/
theorem FaultCause.code_injective : Function.Injective FaultCause.code := by
  intro c d
  cases c <;> cases d <;> decide

/-- The status codes tell the fault statuses apart. -/
theorem fault_eq_of_faultCode_eq {s t : State} (h : s.faultCode = t.faultCode) : s.fault = t.fault := by
  unfold State.faultCode at h
  cases hs : s.fault <;> cases ht : t.fault <;> simp only [hs, ht] at h
  case none.none => rfl
  case none.some d => exact absurd h.symm d.code_ne_zero
  case some.none c => exact absurd h c.code_ne_zero
  case some.some c d => exact congrArg some (FaultCause.code_injective h)

/-- Equal dumps have stack regions of the same length. -/
theorem stackLen_eq_of_dump_eq {s t : State} (h : s.dump = t.dump) : s.stackLen = t.stackLen := by
  simpa [State.dump] using congrArg (fun d => d.stack.length) h

/-- Equal dumps under the same parameters show the same word at every address; beyond both regions both read 0. -/
theorem memRead_eq_of_dump_eq {s t : State} (hcfg : s.config = t.config) (h : s.dump = t.dump) (a : Nat) :
    s.memRead a = t.memRead a := by
  have hN : s.codeLen = t.codeLen := congrArg Config.codeLen hcfg
  have hlen := stackLen_eq_of_dump_eq h
  have hcode : ∀ k < s.codeLen, s.memRead k = t.memRead k := by
    have := congrArg Dump.code h
    simpa [State.dump, ← hN] using this
  have hstack : ∀ j < s.stackLen, s.memRead (s.codeLen + j) = t.memRead (s.codeLen + j) := by
    have := congrArg Dump.stack h
    simpa [State.dump, ← hN, ← hlen] using this
  rcases lt_or_ge a s.codeLen with ha | ha
  · exact hcode a ha
  · rcases lt_or_ge (a - s.codeLen) s.stackLen with hj | hj
    · simpa [Nat.add_sub_cancel' ha] using hstack (a - s.codeLen) hj
    · rw [memRead_beyond (by omega), memRead_beyond (by omega)]

/-- Settles O33: equal dumps read alike at every address, and canonical memories that read alike are equal. -/
theorem dumpShowsTheWholeState : Obligations.DumpShowsTheWholeState := by
  intro s t hs ht hcfg h
  have hmem : s.mem = t.mem := by
    refine Memory.ext_of_wf hs.mem_wf ht.mem_wf fun a => ?_
    rw [← hs.memRead_eq, ← ht.memRead_eq, memRead_eq_of_dump_eq hcfg h]
  have hx : s.x = t.x := Vector.toList_inj.1 (congrArg Dump.regs h)
  have hpc : s.pc = t.pc := congrArg Dump.pc h
  have hhalted : s.halted = t.halted := congrArg Dump.halted h
  have hfault : s.fault = t.fault := fault_eq_of_faultCode_eq (congrArg Dump.fault h)
  have hlen : s.stackLen = t.stackLen := stackLen_eq_of_dump_eq h
  cases s
  cases t
  simp only at hx hpc hhalted hfault hmem hlen hcfg
  simp only [hx, hpc, hhalted, hfault, hmem, hlen, hcfg]

end Sys2Proof.Machine
end

section
/-! PROOFS. The encoder on tuples: its domain, the number it gives, and that the decoder gives the tuple back (R35, R65, R66, R67). -/

namespace Sys2Proof

/-- The field bounds as inequalities (R66; log 7), the third field's by opcode. -/
theorem Fields.inBounds_iff (f : Fields) :
    f.inBounds = true ↔ (0 ≤ f.opcode ∧ f.opcode ≤ 7) ∧ (0 ≤ f.a0 ∧ f.a0 ≤ 7) ∧ (0 ≤ f.a1 ∧ f.a1 ≤ 7) ∧
      (f.opcode ≤ 1 → 0 ≤ f.a2 ∧ f.a2 ≤ 7) ∧ (2 ≤ f.opcode ∧ f.opcode ≤ 4 → -32768 ≤ f.a2 ∧ f.a2 ≤ 32767) ∧
      (5 ≤ f.opcode → 0 ≤ f.a2 ∧ f.a2 ≤ 65535) := by
  simp only [Fields.inBounds, thirdInBounds, within, Bool.and_eq_true, decide_eq_true_eq]
  split_ifs <;> simp only [Bool.and_eq_true, decide_eq_true_eq] <;> omega

theorem Fields.encode_eq_none_iff (f : Fields) : f.encode = none ↔ ¬ f.inBounds = true := by simp [Fields.encode]

theorem Fields.encode_eq_some_iff {f : Fields} {w : Word} : f.encode = some w ↔ f.inBounds = true ∧ f.pack = w := by
  simp [Fields.encode]

/-- A tuple in bounds has register fields and an opcode that are small natural numbers. -/
theorem exists_nat_fields {f : Fields} (h : f.inBounds = true) :
    ∃ (o a b : Nat) (k : Int), f = ⟨o, a, b, k⟩ ∧ o < 8 ∧ a < 8 ∧ b < 8 := by
  obtain ⟨o, a, b, k⟩ := f
  obtain ⟨ho, ha, hb, -⟩ := (Fields.inBounds_iff _).1 h
  simp only at ho ha hb
  lift o to Nat using ho.1
  lift a to Nat using ha.1
  lift b to Nat using hb.1
  exact ⟨o, a, b, k, rfl, by omega, by omega, by omega⟩

/-- A cell whose opcode, and for `add` and `nor` whose third field, is in range decodes (R69, R70). -/
theorem exists_decode_eq_ok {w : Word} (hopr : oprOf w ≤ 7) (hraw : oprOf w ≤ 1 → rawOf w ≤ 7) :
    ∃ i, decode w = .ok i := by
  rcases decode_cases w with ⟨h, -⟩ | ⟨h, h', -⟩ | ⟨-, -, h⟩ | ⟨-, -, h⟩ | ⟨-, h⟩ | ⟨-, h⟩ | ⟨-, h⟩ | ⟨-, h⟩ | ⟨-, h⟩ | ⟨-, h⟩
  · omega
  · have := hraw h
    omega
  all_goals exact ⟨_, h⟩

/-- The tuple of a decoded cell: its fields as the cell holds them, the third sign-extended for opcodes 2, 3, 4 (R34, R63). -/
theorem fields_of_decode {w : Word} {i : Instr} (h : decode w = .ok i) :
    i.fields = ⟨oprOf w, (a0Of w).val, (a1Of w).val,
      if 2 ≤ oprOf w ∧ oprOf w ≤ 4 then sext16 (rawOf w) else rawOf w⟩ := by
  rcases decode_cases w with ⟨-, hd⟩ | ⟨-, -, hd⟩ | ⟨ho, hr, hd⟩ | ⟨ho, hr, hd⟩ | ⟨ho, hd⟩ | ⟨ho, hd⟩ | ⟨ho, hd⟩ | ⟨ho, hd⟩ |
    ⟨ho, hd⟩ | ⟨ho, hd⟩ <;> rw [hd] at h <;> cases h
  case _ | _ =>
    have hthird : (rawOf w : Int) % 8 = rawOf w := by omega
    simp [Instr.fields, ho, hthird]
  all_goals simp [Instr.fields, ho]

/-- Packing a tuple in bounds and decoding the cell gives the tuple back (R67). -/
theorem decode_pack {f : Fields} (h : f.inBounds = true) : ∃ i, decode f.pack = .ok i ∧ i.fields = f := by
  obtain ⟨o, a, b, k, rfl, ho, ha, hb⟩ := exists_nat_fields h
  obtain ⟨hopr, ha0, ha1, hraw⟩ := fields_of_pack k ho ha hb
  obtain ⟨-, -, -, hreg, hdisp, hunused⟩ := (Fields.inBounds_iff _).1 h
  simp only at hreg hdisp hunused
  obtain ⟨i, hi⟩ := exists_decode_eq_ok (w := Fields.pack ⟨o, a, b, k⟩) (by omega) (by omega)
  refine ⟨i, hi, ?_⟩
  rw [fields_of_decode hi, hopr, ha0, ha1, hraw]
  congr 1
  split_ifs with hsigned
  · have hk : dispInBounds k = true := by
      simp only [dispInBounds, Bool.and_eq_true, decide_eq_true_eq]
      omega
    exact sext16_emod hk
  · omega

/-- Settles O3: the domain is the field bounds, where the placed fields do not overlap and decode back. -/
theorem encoderAcceptsExactlyTheBounds : Obligations.EncoderAcceptsExactlyTheBounds := by
  intro f
  refine ⟨by rw [Fields.encode_eq_none_iff, Fields.inBounds_iff], fun w hw => ?_⟩
  obtain ⟨hbounds, rfl⟩ := Fields.encode_eq_some_iff.1 hw
  refine ⟨?_, decode_pack hbounds⟩
  obtain ⟨o, a, b, k, rfl, ho, ha, hb⟩ := exists_nat_fields hbounds
  rw [pack_toNat ho ha hb]
  push_cast
  omega

end Sys2Proof
end

section
/-! PROOFS. Data accesses at a valid and at an invalid address: the exact effective address and its fault, and a store seen by the fetch at
its address (R54, R56, R91, R110, R111, R180). -/

namespace Sys2Proof.Machine

/-! ## An access at a known address -/

section
variable {s : State} {a0 : RegIdx} {d : Int} (a1 : RegIdx)

theorem accessing_of_valid {ea : Int} (h : s.ValidAddr ea) (f : Nat → State) : s.accessing ea f = f ea.toNat := if_pos h

theorem accessing_of_not_valid {ea : Int} (h : ¬ s.ValidAddr ea) (f : Nat → State) :
    s.accessing ea f = s.raise .dataAddressInvalid := if_neg h

/-- A store to a valid address writes the one cell and advances (R111). -/
theorem exec_sw_of_valid (h : s.ValidAddr (effectiveAddress (s.readReg a0) d)) : exec (.sw a0 a1 d) s =
    .next (s.memWrite (effectiveAddress (s.readReg a0) d).toNat (s.readReg a1)).advance := by
  rw [exec_sw, accessing_of_valid h]

/-- A load from an invalid address enters the fault (R110). -/
theorem exec_lw_of_not_valid (h : ¬ s.ValidAddr (effectiveAddress (s.readReg a0) d)) :
    exec (.lw a0 a1 d) s = .next (s.raise .dataAddressInvalid) := by
  rw [exec_lw, accessing_of_not_valid h]

/-- A store to an invalid address enters the fault (R111). -/
theorem exec_sw_of_not_valid (h : ¬ s.ValidAddr (effectiveAddress (s.readReg a0) d)) :
    exec (.sw a0 a1 d) s = .next (s.raise .dataAddressInvalid) := by
  rw [exec_sw, accessing_of_not_valid h]

end

/-! ## The exact effective address -/

/-- The range of a 16-bit displacement added to a signed 32-bit base, without wrap (R56). -/
theorem effectiveAddress_bounds (base : Word) {d : Int} (hlo : -32768 ≤ d) (hhi : d ≤ 32767) :
    -2 ^ 31 - 32768 ≤ effectiveAddress base d ∧ effectiveAddress base d ≤ 2 ^ 31 + 32766 := by
  have hbase_lo : -2 ^ 31 ≤ s32 base := BitVec.le_toInt base
  have hbase_hi : s32 base < 2 ^ 31 := BitVec.toInt_lt
  unfold effectiveAddress
  omega

/-- `MEM_LIMIT` is at most `2^31`, so a valid address fits in 31 bits (R6, R42). -/
theorem State.ValidAddr.fits_31_bits {s : State} {ea : Int} (h : s.ValidAddr ea) (hwf : s.config.wf) : 0 ≤ ea ∧ ea < 2 ^ 31 := by
  obtain ⟨hlo, hhi⟩ := h
  obtain ⟨-, hlimit⟩ := hwf
  omega

/-- Settles O16: a valid address fits in 31 bits, so an exact sum outside them is invalid, and `lw` and `sw` fault there. -/
theorem effectiveAddressNeverWraps : Obligations.EffectiveAddressNeverWraps := by
  intro a0 a1 a2 s hwf hlo hhi
  obtain ⟨hge, hle⟩ := effectiveAddress_bounds (s.readReg a0) hlo hhi
  refine ⟨rfl, hge, hle, fun hout => ?_⟩
  have hbad : ¬ s.ValidAddr (effectiveAddress (s.readReg a0) a2) := fun hvalid => hout (hvalid.fits_31_bits hwf)
  exact ⟨exec_lw_of_not_valid a1 hbad, exec_sw_of_not_valid a1 hbad⟩

/-! ## A store and the fetch after it -/

/-- At a valid pc the fetch is the read of the cell there (R91). -/
theorem fetch_of_valid {s : State} (h : s.ValidAddr (s32 s.pc)) : s.fetch = .ok (s.memRead (s32 s.pc).toNat) := if_pos h

theorem fetchDecode_of_fetch {s : State} {w : Word} {i : Instr} (hfetch : s.fetch = .ok w) (hdec : decode w = .ok i) :
    s.fetchDecode = .ok i := by
  simp [State.fetchDecode, hfetch, hdec]

/-- After a write at the valid address `ea`, a fetch with the pc there returns the word written (R45, R91). -/
theorem fetch_memWrite {s : State} {ea : Int} {pc : Word} (h : s.ValidAddr ea) (hpc : s32 pc = ea) (v : Word) :
    ({ s.memWrite ea.toNat v with pc := pc } : State).fetch = .ok v := by
  subst hpc
  have hvalid : (s.memWrite (s32 pc).toNat v).ValidAddr (s32 pc) := by rwa [State.ValidAddr, memWrite_config]
  have hread : (s.memWrite (s32 pc).toNat v).memRead (s32 pc).toNat = v := by simp [memRead_memWrite]
  exact (fetch_of_valid hvalid).trans (congrArg Except.ok hread)

/-- Settles O22: the store leaves memory written and the machine running, so the next step fetches, decodes and runs the stored word. -/
theorem storeIsSeenByTheNextFetch : Obligations.StoreIsSeenByTheNextFetch := by
  intro a0 a1 a2 s t hrun hvalid h
  rw [exec_sw_of_valid a1 hvalid] at h
  cases h
  refine ⟨fun pc hpc => fetch_memWrite hvalid hpc _, fun hpc i hdec => ?_⟩
  exact step_of_fetchDecode_ok (by simpa using hrun) (fetchDecode_of_fetch (fetch_memWrite hvalid hpc _) hdec)

end Sys2Proof.Machine
end

section
/-! PROOFS. The round trip of the decoder and the encoder, and that whatever decodes is within the field bounds (R63, R66, R67). -/

namespace Sys2Proof

/-! ## An instruction and its tuple -/

/-- The instruction that a tuple in bounds names: `Instr.fields` undone. -/
def Fields.toInstr (f : Fields) : Instr :=
  let a0 : RegIdx := Fin.ofNat 8 f.a0.toNat
  let a1 : RegIdx := Fin.ofNat 8 f.a1.toNat
  match f.opcode.toNat with
  | 0 => .add a0 a1 (Fin.ofNat 8 f.a2.toNat)
  | 1 => .nor a0 a1 (Fin.ofNat 8 f.a2.toNat)
  | 2 => .lw a0 a1 f.a2
  | 3 => .sw a0 a1 f.a2
  | 4 => .beq a0 a1 f.a2
  | 5 => .jalr a0 a1 f.a2.toNat
  | 6 => .halt a0 a1 f.a2.toNat
  | _ => .noop a0 a1 f.a2.toNat

theorem Instr.toInstr_fields (i : Instr) : i.fields.toInstr = i := by
  cases i <;> simp [Instr.fields, Fields.toInstr]

/-- The tuple tells instructions apart (R34). -/
theorem Instr.fields_injective : Function.Injective Instr.fields :=
  Function.LeftInverse.injective Instr.toInstr_fields

/-- The bounds of an instruction are the bounds of its tuple (R66, R67). -/
theorem Instr.wellFormed_iff_inBounds (i : Instr) : i.wellFormed = true ↔ i.fields.inBounds = true := by
  rw [Fields.inBounds_iff]
  cases i with
  | add | nor =>
    simp only [Instr.wellFormed, Instr.fields, true_iff]
    omega
  | lw | sw | beq =>
    simp only [Instr.wellFormed, Instr.fields, dispInBounds, Bool.and_eq_true, decide_eq_true_eq]
    omega
  | jalr | halt | noop =>
    simp only [Instr.wellFormed, Instr.fields, unusedInBounds, decide_eq_true_eq]
    omega

/-- Whatever decodes is in the bounds: a sign-extended field is a displacement in bounds, an unsigned one has 16 bits. -/
theorem wellFormed_of_decode {w : Word} {i : Instr} (h : decode w = .ok i) : i.wellFormed = true := by
  have hdisp : dispInBounds (sext16 (rawOf w)) = true := sext16_inBounds (rawOf_lt w)
  have hunused : unusedInBounds (rawOf w) = true := decide_eq_true (Nat.le_of_lt_succ (rawOf_lt w))
  rcases decode_cases w with ⟨-, hd⟩ | ⟨-, -, hd⟩ | ⟨-, -, hd⟩ | ⟨-, -, hd⟩ | ⟨-, hd⟩ | ⟨-, hd⟩ | ⟨-, hd⟩ | ⟨-, hd⟩ | ⟨-, hd⟩ |
    ⟨-, hd⟩ <;> rw [hd] at h <;> cases h
  · rfl
  · rfl
  iterate 3 exact hdisp
  iterate 3 exact hunused

/-- Settles O2: the decoder's third field is in bounds, and the bounds of an instruction are those of its tuple. -/
theorem decodedInstructionsAreInBounds : Obligations.DecodedInstructionsAreInBounds := fun _ i h =>
  have hwf : i.wellFormed = true := wellFormed_of_decode h
  ⟨hwf, i.wellFormed_iff_inBounds.1 hwf⟩

/-! ## The two round trips -/

/-- Decoding undoes encoding, for every instruction in bounds (R67). -/
theorem decode_encode {i : Instr} (h : i.wellFormed = true) : decode (encode i) = .ok i := by
  obtain ⟨j, hdecode, hfields⟩ := decode_pack (i.wellFormed_iff_inBounds.1 h)
  cases Instr.fields_injective hfields
  exact hdecode

/-- A cell that decodes has no bit set above bit 25 (R69). -/
theorem oprOf_lt_of_decode {w : Word} {i : Instr} (h : decode w = .ok i) : oprOf w < 8 := by
  rcases decode_cases w with ⟨-, hd⟩ | hd
  · rw [hd] at h
    cases h
  · omega

/-- Sign extension changes nothing modulo `2^16`. -/
theorem emod_sext16 {v : Nat} (h : v < 2 ^ 16) : (sext16 v % 2 ^ 16).toNat = v := by
  unfold sext16
  split <;> omega

/-- Encoding what a cell decodes to gives the cell's number without its bit 22, the one bit that the decoder does not look at (R71). -/
theorem u32_encode_of_decode {w : Word} {i : Instr} (h : decode w = .ok i) :
    u32 (encode i) + u32 w / 2 ^ 22 % 2 * 2 ^ 22 = u32 w := by
  have hraw := rawOf_lt w
  have hthird : ((if 2 ≤ oprOf w ∧ oprOf w ≤ 4 then sext16 (rawOf w) else rawOf w) % 2 ^ 16).toNat = rawOf w := by
    split
    · exact emod_sext16 hraw
    · omega
  rw [encode, fields_of_decode h, pack_toNat (oprOf_lt_of_decode h) (a0Of w).2 (a1Of w).2, hthird, oprOf_eq, a0Of_val, a1Of_val,
    rawOf]
  omega

/-- Bit 22 of a cell, as a digit of its number. -/
theorem getLsbD_22_eq_false_iff (w : Word) : w.getLsbD 22 = false ↔ u32 w / 2 ^ 22 % 2 = 0 := by
  rw [u32, ← BitVec.testBit_toNat, Nat.testBit_eq_decide_div_mod_eq, decide_eq_false_iff_not]
  omega

/-- Settles O1: the tuple of an instruction in bounds decodes back, and a cell differs from its re-encoding at most in bit 22. -/
theorem decodeEncodeRoundTrip : Obligations.DecodeEncodeRoundTrip := by
  refine ⟨fun i => decode_encode, fun w i h => ?_⟩
  have hw := u32_encode_of_decode h
  have hcell : encode i = w ↔ u32 (encode i) = u32 w := BitVec.toNat_inj.symm
  rw [hcell, getLsbD_22_eq_false_iff]
  omega

end Sys2Proof
end

section
/-! PROOFS. The decoder by the opcode table: its equation for each opcode, its fields as slices of bits, and the table's masks. Rows, decode
faults and ignored bits follow (R60, R63, R68 to R71). -/

namespace Sys2Proof

/-! ## The decoder's equations, by opcode -/

section
variable {w : Word}

theorem decode_add (ho : oprOf w = 0) (hr : rawOf w ≤ 7) :
    decode w = .ok (.add (a0Of w) (a1Of w) (Fin.ofNat 8 (rawOf w))) := by
  simp [decode, withDestination, ho, hr]

theorem decode_nor (ho : oprOf w = 1) (hr : rawOf w ≤ 7) :
    decode w = .ok (.nor (a0Of w) (a1Of w) (Fin.ofNat 8 (rawOf w))) := by
  simp [decode, withDestination, ho, hr]

theorem decode_lw (ho : oprOf w = 2) : decode w = .ok (.lw (a0Of w) (a1Of w) (sext16 (rawOf w))) := by simp [decode, ho]

theorem decode_sw (ho : oprOf w = 3) : decode w = .ok (.sw (a0Of w) (a1Of w) (sext16 (rawOf w))) := by simp [decode, ho]

theorem decode_beq (ho : oprOf w = 4) : decode w = .ok (.beq (a0Of w) (a1Of w) (sext16 (rawOf w))) := by simp [decode, ho]

theorem decode_jalr (ho : oprOf w = 5) : decode w = .ok (.jalr (a0Of w) (a1Of w) (rawOf w)) := by simp [decode, ho]

theorem decode_halt (ho : oprOf w = 6) : decode w = .ok (.halt (a0Of w) (a1Of w) (rawOf w)) := by simp [decode, ho]

theorem decode_noop (ho : oprOf w = 7) : decode w = .ok (.noop (a0Of w) (a1Of w) (rawOf w)) := by simp [decode, ho]

/-- R69. -/
theorem decode_eq_opcodeOutOfRange_iff : decode w = .error .opcodeOutOfRange ↔ 7 < oprOf w := by
  rcases decode_cases w with ⟨ho, hd⟩ | ⟨ho, -, hd⟩ | ⟨ho, -, hd⟩ | ⟨ho, -, hd⟩ | ⟨ho, hd⟩ | ⟨ho, hd⟩ | ⟨ho, hd⟩ | ⟨ho, hd⟩ |
    ⟨ho, hd⟩ | ⟨ho, hd⟩ <;> simp only [hd, reduceCtorEq, Except.error.injEq, false_iff, true_iff] <;> omega

/-- R70. -/
theorem decode_eq_fieldOutOfRange_iff : decode w = .error .fieldOutOfRange ↔ oprOf w ≤ 1 ∧ 7 < rawOf w := by
  rcases decode_cases w with ⟨ho, hd⟩ | ⟨ho, hr, hd⟩ | ⟨ho, hr, hd⟩ | ⟨ho, hr, hd⟩ | ⟨ho, hd⟩ | ⟨ho, hd⟩ | ⟨ho, hd⟩ | ⟨ho, hd⟩ |
    ⟨ho, hd⟩ | ⟨ho, hd⟩ <;> simp only [hd, reduceCtorEq, Except.error.injEq, false_iff, true_iff] <;> omega

end

/-! ## The fields as slices of bits -/

section
variable (w : Word)

theorem oprOf_eq_slice : oprOf w = (w.extractLsb' 23 9).toNat := by
  rw [oprOf, BitVec.extractLsb'_toNat, u32, Nat.shiftRight_eq_div_pow]
  omega

theorem a0Of_eq_slice : a0Of w = (w.extractLsb' 19 3).toFin := by simp [a0Of]

theorem a1Of_eq_slice : a1Of w = (w.extractLsb' 16 3).toFin := by simp [a1Of]

theorem rawOf_eq_slice : rawOf w = (w.extractLsb' 0 16).toNat := by simp [rawOf]

/-- The sign-extended third field is the signed reading of its 16 bits (R8, R64). -/
theorem sext16_rawOf_eq_slice : sext16 (rawOf w) = (w.extractLsb' 0 16).toInt := by
  rw [BitVec.toInt_eq_toNat_cond, ← rawOf_eq_slice]
  unfold sext16
  split <;> split <;> omega

/-- A destination in range is the third field's low three bits (R63). -/
theorem destination_eq_slice : Fin.ofNat 8 (rawOf w) = (w.extractLsb' 0 3).toFin := by
  apply Fin.ext
  simp [rawOf]

end

/-! ## Masks -/

section
variable {w v m c : Word} {lo len : Nat}

/-- A match fixes every slice that its mask covers. -/
theorem slice_of_match (h : w &&& m = c) (hm : m.extractLsb' lo len = BitVec.allOnes len) :
    w.extractLsb' lo len = c.extractLsb' lo len := by
  rw [← h, BitVec.extractLsb'_and, hm, BitVec.and_allOnes]

/-- Cells that agree under a mask agree in every slice that it covers. -/
theorem slice_eq_of_masked_eq (h : w &&& m = v &&& m) (hm : m.extractLsb' lo len = BitVec.allOnes len) :
    w.extractLsb' lo len = v.extractLsb' lo len :=
  (slice_of_match h hm).trans (slice_of_match rfl hm).symm

theorem oprOf_of_match (h : w &&& m = c) (hm : m.extractLsb' 23 9 = BitVec.allOnes 9 := by decide) : oprOf w = oprOf c := by
  rw [oprOf_eq_slice, oprOf_eq_slice, slice_of_match h hm]

/-- A match whose mask covers bits 15:3 and whose value has them 0 fixes a third field that a register index can hold. -/
theorem rawOf_le_of_match (h : w &&& m = c) (hm : m.extractLsb' 3 13 = BitVec.allOnes 13) (hc : c.extractLsb' 3 13 = 0) :
    rawOf w ≤ 7 := by
  have hslice : (w.extractLsb' 3 13).toNat = 0 := by rw [slice_of_match h hm, hc]; rfl
  rw [BitVec.extractLsb'_toNat, Nat.shiftRight_eq_div_pow] at hslice
  unfold rawOf u32
  omega

/-- A mask of `len` ones from bit `lo` up keeps one field, at its place. -/
theorem u32_and_ones (hm : u32 m = (2 ^ len - 1) <<< lo) : u32 (w &&& m) = (u32 w / 2 ^ lo % 2 ^ len) <<< lo := by
  simp only [u32] at hm ⊢
  rw [BitVec.toNat_and, hm]
  refine Nat.eq_of_testBit_eq fun i => ?_
  by_cases hi : lo ≤ i
  · simp [Nat.testBit_div_two_pow, hi, Bool.and_comm]
  · simp [hi]

/-- Such a mask gives 0 exactly where the field is 0. -/
theorem and_ones_eq_zero_iff (lo len : Nat) (hm : u32 m = (2 ^ len - 1) <<< lo) : w &&& m = 0 ↔ u32 w / 2 ^ lo % 2 ^ len = 0 := by
  have hzero : w &&& m = 0 ↔ u32 (w &&& m) = 0 := BitVec.toNat_inj.symm
  rw [hzero, u32_and_ones hm, Nat.shiftLeft_eq_zero_iff]

end

/-! ## The opcode table -/

/-- Bits 31:26 are 0 exactly where the opcode is in range (R69). -/
theorem and_reserved_eq_zero_iff (w : Word) : w &&& 0xFC000000#32 = 0 ↔ oprOf w ≤ 7 := by
  have hw : u32 w < 2 ^ 32 := w.isLt
  rw [and_ones_eq_zero_iff 26 6 (by decide), oprOf_eq]
  omega

/-- Bits 31:24 are 0 exactly for opcodes 0 and 1 (R70). -/
theorem and_aboveRegisterOps_eq_zero_iff (w : Word) : w &&& 0xFF000000#32 = 0 ↔ oprOf w ≤ 1 := by
  have hw : u32 w < 2 ^ 32 := w.isLt
  rw [and_ones_eq_zero_iff 24 8 (by decide), oprOf_eq]
  omega

/-- Bits 15:3 are 0 exactly where the third field can be a register index (R70). -/
theorem and_aboveDestination_eq_zero_iff (w : Word) : w &&& 0x0000FFF8#32 = 0 ↔ rawOf w ≤ 7 := by
  rw [and_ones_eq_zero_iff 3 13 (by decide), rawOf]
  omega

/-- Settles O4: a row's match fixes the opcode, and for `add` and `nor` bounds the third field; the faults are the decoder's two checks. -/
theorem decodeFollowsTheOpcodeTable : Obligations.DecodeFollowsTheOpcodeTable := by
  intro w
  dsimp only
  rw [← a0Of_eq_slice, ← a1Of_eq_slice, ← destination_eq_slice, ← sext16_rawOf_eq_slice, ← rawOf_eq_slice]
  refine ⟨fun h => ?_, fun h => ?_, fun h => decode_lw (oprOf_of_match h), fun h => decode_sw (oprOf_of_match h),
    fun h => decode_beq (oprOf_of_match h), fun h => decode_jalr (oprOf_of_match h), fun h => decode_halt (oprOf_of_match h),
    fun h => decode_noop (oprOf_of_match h), ?_, ?_⟩
  · exact decode_add (oprOf_of_match h) (rawOf_le_of_match h (by decide) (by decide))
  · exact decode_nor (oprOf_of_match h) (rawOf_le_of_match h (by decide) (by decide))
  · rw [decode_eq_opcodeOutOfRange_iff, Ne, and_reserved_eq_zero_iff, not_le]
  · rw [decode_eq_fieldOutOfRange_iff, Ne, and_aboveRegisterOps_eq_zero_iff, and_aboveDestination_eq_zero_iff, not_le]

/-- Settles O6: the decoder evaluates on each of the ten cells. -/
theorem tabledCellsDecode : Obligations.TabledCellsDecode := by
  unfold Obligations.TabledCellsDecode
  decide

/-! ## Ignored bits -/

/-- Bits outside a slice do not change it. -/
theorem slice_xor_of_outside {w b : Word} {lo len : Nat} (hb : b.extractLsb' lo len = 0) :
    (w ^^^ b).extractLsb' lo len = w.extractLsb' lo len := by
  rw [BitVec.extractLsb'_xor, hb]
  exact BitVec.xor_zero

/-- The decoder looks at a cell's four fields only. -/
theorem decode_congr {w v : Word} (ho : oprOf w = oprOf v) (h0 : a0Of w = a0Of v) (h1 : a1Of w = a1Of v)
    (hr : rawOf w = rawOf v) : decode w = decode v := by
  simp only [decode, ho, h0, h1, hr]

/-- Bit 22 lies in no field (R71). -/
theorem decode_xor_bit22 (w : Word) : decode (w ^^^ 0x00400000#32) = decode w := by
  apply decode_congr
  · rw [oprOf_eq_slice, oprOf_eq_slice, slice_xor_of_outside (by decide)]
  · rw [a0Of_eq_slice, a0Of_eq_slice, slice_xor_of_outside (by decide)]
  · rw [a1Of_eq_slice, a1Of_eq_slice, slice_xor_of_outside (by decide)]
  · rw [rawOf_eq_slice, rawOf_eq_slice, slice_xor_of_outside (by decide)]

/-- Two `jalr` cells that agree in bits 31:23 and 21:16 decode to instructions with the same execution (R71). -/
theorem jalr_ignores {w v : Word} (hw : w &&& 0xFF800000#32 = 0x02800000#32)
    (h : w &&& 0xFFBF0000#32 = v &&& 0xFFBF0000#32) :
    ∃ i j, decode w = .ok i ∧ decode v = .ok j ∧ ∀ s, Machine.exec i s = Machine.exec j s := by
  have hopr : oprOf w = 5 := oprOf_of_match hw
  have hopr' : oprOf w = oprOf v := by
    rw [oprOf_eq_slice, oprOf_eq_slice, slice_eq_of_masked_eq h (by decide)]
  have h0 : a0Of w = a0Of v := by rw [a0Of_eq_slice, a0Of_eq_slice, slice_eq_of_masked_eq h (by decide)]
  have h1 : a1Of w = a1Of v := by rw [a1Of_eq_slice, a1Of_eq_slice, slice_eq_of_masked_eq h (by decide)]
  refine ⟨_, _, decode_jalr hopr, decode_jalr (hopr'.symm.trans hopr), fun s => ?_⟩
  rw [h0, h1]
  rfl

/-- `halt` and `noop` ignore all their fields (R71). -/
theorem halt_noop_ignore {w v : Word} (hw : w &&& 0xFF800000#32 = 0x03000000#32 ∨ w &&& 0xFF800000#32 = 0x03800000#32)
    (h : w &&& 0xFF800000#32 = v &&& 0xFF800000#32) :
    ∃ i j, decode w = .ok i ∧ decode v = .ok j ∧ ∀ s, Machine.exec i s = Machine.exec j s := by
  rcases hw with hw | hw
  · exact ⟨_, _, decode_halt (oprOf_of_match hw), decode_halt (oprOf_of_match (h.symm.trans hw)), fun _ => rfl⟩
  · exact ⟨_, _, decode_noop (oprOf_of_match hw), decode_noop (oprOf_of_match (h.symm.trans hw)), fun _ => rfl⟩

/-- `encode` writes bit 22 as 0 (R65). -/
theorem encode_and_bit22 (i : Instr) : encode i &&& 0x00400000#32 = 0 := by
  have hfits : Laws.EncodingFits.Statement i := by
    cases i with
    | add => exact Laws.EncodingFits.add ..
    | nor => exact Laws.EncodingFits.nor ..
    | lw => exact Laws.EncodingFits.lw ..
    | sw => exact Laws.EncodingFits.sw ..
    | beq => exact Laws.EncodingFits.beq ..
    | jalr => exact Laws.EncodingFits.jalr ..
    | halt => exact Laws.EncodingFits.halt ..
    | noop => exact Laws.EncodingFits.noop ..
  obtain ⟨-, hbit⟩ := hfits
  exact (and_ones_eq_zero_iff 22 1 (by decide)).2 hbit

/-- What the Assembler supplies is in bounds: an unused field 0 is (R66). -/
theorem Instr.wellFormed_of_assemblerForm {i : Instr} (h : i.assemblerForm = true) : i.wellFormed = true := by
  cases i with
  | add | nor | lw | sw | beq => exact h
  | jalr a0 a1 k =>
    obtain rfl : k = 0 := of_decide_eq_true h
    rfl
  | halt a0 a1 k | noop a0 a1 k =>
    obtain ⟨-, -, rfl⟩ : a0 = 0 ∧ a1 = 0 ∧ k = 0 := of_decide_eq_true h
    rfl

/-- The instruction that a well-formed instruction's cell decodes to is that instruction (R67). -/
theorem eq_of_decode_encode {i j : Instr} (hi : i.wellFormed = true) (h : decode (encode i) = .ok j) : i = j :=
  Except.ok.inj ((decode_encode hi).symm.trans h)

/-- A `jalr` with third field 0 has bits 15:0 of its cell 0 (R66). -/
theorem encode_jalr_zero (a0 a1 : RegIdx) : encode (.jalr a0 a1 0) &&& 0x0000FFFF#32 = 0 := by
  obtain ⟨-, -, -, hraw⟩ := fields_of_pack (o := 5) 0 (by decide) a0.2 a1.2
  rw [and_ones_eq_zero_iff 0 16 (by decide)]
  rw [pow_zero, Nat.div_one]
  exact hraw

/-- Settles O5: the ignored bits lie outside the fields that execution looks at; a cell the Assembler makes decodes to its instruction, whose
unused fields are 0. -/
theorem ignoredBitsSelectNothing : Obligations.IgnoredBitsSelectNothing := by
  refine ⟨decode_xor_bit22, fun w v => jalr_ignores, fun w v => halt_noop_ignore, fun i _ => encode_and_bit22 i, fun i hi => ?_⟩
  have hwf := Instr.wellFormed_of_assemblerForm hi
  refine ⟨hwf, fun hjalr => ?_, fun hrow => ?_⟩
  · obtain ⟨a0, a1, k, rfl⟩ : ∃ a0 a1 k, i = .jalr a0 a1 k :=
      ⟨_, _, _, eq_of_decode_encode hwf (decode_jalr (oprOf_of_match hjalr))⟩
    obtain rfl : k = 0 := of_decide_eq_true hi
    exact encode_jalr_zero a0 a1
  · rcases hrow with hhalt | hnoop
    · obtain ⟨a0, a1, k, rfl⟩ : ∃ a0 a1 k, i = .halt a0 a1 k :=
        ⟨_, _, _, eq_of_decode_encode hwf (decode_halt (oprOf_of_match hhalt))⟩
      obtain ⟨rfl, rfl, rfl⟩ : a0 = 0 ∧ a1 = 0 ∧ k = 0 := of_decide_eq_true hi
      decide
    · obtain ⟨a0, a1, k, rfl⟩ : ∃ a0 a1 k, i = .noop a0 a1 k :=
        ⟨_, _, _, eq_of_decode_encode hwf (decode_noop (oprOf_of_match hnoop))⟩
      obtain ⟨rfl, rfl, rfl⟩ : a0 = 0 ∧ a1 = 0 ∧ k = 0 := of_decide_eq_true hi
      decide

end Sys2Proof
end

section
/-! PROOFS. What is fetched and run next: data cells that decode, unwritten memory, and the word that the host places (R44, R61, R72, R91,
R172). -/

namespace Sys2Proof.Machine

/-! ## Data that decodes -/

/-- A value that fits the third field is a cell with opcode 0 (R72). -/
theorem fields_of_data {v : Nat} (hv : v ≤ 65535) : oprOf (BitVec.ofNat 32 v) = 0 ∧ rawOf (BitVec.ofNat 32 v) = v := by
  have hu : u32 (BitVec.ofNat 32 v) = v := Nat.mod_eq_of_lt (by omega)
  rw [oprOf_eq, rawOf, hu]
  omega

/-- A cell `0 .. 7` is `add 0 0 <value>` (R72). -/
theorem decode_data_register (v : RegIdx) : decode (BitVec.ofNat 32 v.val) = .ok (.add 0 0 v) := by
  revert v
  decide

/-- A step of a running machine at an address beyond both regions executes the unwritten cell, `add 0 0 0` (R44, R72). -/
theorem step_beyond {s : State} (hrun : s.halted = false) (hvalid : s.ValidAddr (s32 s.pc))
    (hbeyond : (s.codeLen + s.stackLen : Int) ≤ s32 s.pc) : step s = exec (.add 0 0 0) s := by
  have hread : s.memRead (s32 s.pc).toNat = 0 := memRead_beyond (by omega)
  have hfetch : s.fetch = .ok 0 := by rw [fetch_of_valid hvalid, hread]
  exact step_of_fetchDecode_ok hrun (fetchDecode_of_fetch hfetch (decode_data_register 0))

/-- Settles O7: the value is the third field of an opcode-0 cell, and an unwritten cell is the value 0. -/
theorem dataThatDecodes : Obligations.DataThatDecodes := by
  refine ⟨fun v => ⟨decode_data_register v, fun s => ⟨_, exec_add 0 0 v s, ?_⟩⟩, fun v hlo hhi => ?_,
    fun s hrun hvalid hbeyond => ⟨_, (step_beyond hrun hvalid hbeyond).trans (exec_add 0 0 0 s), ?_⟩⟩
  · rw [readReg_advance, readReg_writeReg_same]
  · obtain ⟨hopr, hraw⟩ := fields_of_data hhi
    exact decode_eq_fieldOutOfRange_iff.2 (by omega)
  · refine ⟨?_, fun r hr => ?_, nextPc_eq s.pc, ⟨rfl, rfl⟩, fun a => rfl, rfl, rfl⟩
    · rw [readReg_advance, readReg_writeReg_same]
    · exact readReg_writeReg_of_ne s _ hr

/-! ## The word that the host places -/

/-- A table word that decodes is a cell that decodes to the same instruction (R61). -/
theorem decode_of_decodeTableWord {nbits w : Nat} {i : Instr} (h : decodeTableWord nbits w = some i) :
    decode (BitVec.ofNat 32 (w % 2 ^ nbits)) = .ok i := by
  unfold decodeTableWord at h
  split at h
  · cases hd : decode (BitVec.ofNat 32 (w % 2 ^ nbits)) with
    | ok j =>
      rw [hd] at h
      exact congrArg Except.ok (Option.some.inj h)
    | error d =>
      rw [hd] at h
      cases h
  · cases h

/-- At a valid pc the placed word is written at the pc of a running machine (log 5). -/
theorem exists_withFetchWord_eq_memWrite {s : State} (h : s.ValidAddr (s32 s.pc)) (nbits w : Nat) :
    ∃ r : State, r.halted = false ∧ r.ValidAddr (s32 r.pc) ∧
      s.withFetchWord nbits w = r.memWrite (s32 r.pc).toNat (BitVec.ofNat 32 (w % 2 ^ nbits)) :=
  ⟨{ s with halted := false, fault := none }, rfl, h, if_pos h⟩

/-- A word written at a valid pc is what is fetched there (R45, R91). -/
theorem fetch_memWrite_at_pc {s : State} (h : s.ValidAddr (s32 s.pc)) (v : Word) :
    (s.memWrite (s32 s.pc).toNat v).fetch = .ok v := by
  have hvalid : (s.memWrite (s32 s.pc).toNat v).ValidAddr (s32 (s.memWrite (s32 s.pc).toNat v).pc) := by
    rwa [State.ValidAddr, memWrite_config, memWrite_pc]
  rw [fetch_of_valid hvalid, memWrite_pc, memRead_memWrite, if_pos rfl]

/-- Settles O34: the placed word is read after the write at the pc, in a running machine. -/
theorem placedWordIsRunNext : Obligations.PlacedWordIsRunNext := by
  intro s nbits w i hvalid hword
  obtain ⟨r, hrun, hvalid', hplaced⟩ := exists_withFetchWord_eq_memWrite hvalid nbits w
  rw [hplaced]
  refine step_of_fetchDecode_ok ?_ (fetchDecode_of_fetch (fetch_memWrite_at_pc hvalid' _) (decode_of_decodeTableWord hword))
  rw [memWrite_halted, hrun]

end Sys2Proof.Machine
end

section
/-! PROOFS. The toolchain interface: a branch to a label, and the layout of the linked program (R79, R81, R83, R85, R88, R89). -/

namespace Sys2Proof.Assembler

/-! ## Branches -/

section
variable (label : Option String) (a0 a1 : Int) (t : Symbols) (address : Nat)

/-- The tuple of a `beq` line (R79, R83). -/
theorem fields_beq (o : Operand) : CodeLine.fields ⟨label, "beq", [.num a0, .num a1, o]⟩ t address =
    (o.displacement t address).map (Fields.mk 4 a0 a1) := rfl

theorem displacement_num (k : Int) : Operand.displacement t address (.num k) = some k := rfl

theorem displacement_of_find {t : Symbols} {name : String} {target : Nat} (h : t.find name = some target) :
    Operand.displacement t address (.sym name) = some (branchDisplacement target address) := by
  rw [Operand.displacement, h]
  rfl

end

/-- An instruction with a `beq`'s tuple is a `beq` (R68). -/
theorem eq_beq_of_fields {i : Instr} {a0 a1 d : Int} (h : i.fields = ⟨4, a0, a1, d⟩) :
    ∃ r0 r1, i = .beq r0 r1 d ∧ (r0.val : Int) = a0 ∧ (r1.val : Int) = a1 := by
  cases i with
  | beq r0 r1 k =>
    cases h
    exact ⟨r0, r1, rfl, rfl, rfl⟩
  | add | nor | lw | sw | jalr | halt | noop => cases h

/-- A displacement added to the next instruction's address is the target, in 32 bits (R83, R120). -/
theorem add_branchDisplacement (target address : Nat) :
    BitVec.ofNat 32 address + 1 + BitVec.ofInt 32 (branchDisplacement target address) = BitVec.ofNat 32 target := by
  have hone : (1 : Word) = BitVec.ofInt 32 1 := rfl
  have hsum : (address : Int) + 1 + branchDisplacement target address = target := by
    unfold branchDisplacement
    omega
  rw [← BitVec.ofInt_natCast 32 address, hone, ← BitVec.ofInt_add, ← BitVec.ofInt_add, hsum, BitVec.ofInt_natCast]

/-- Settles O35: the line's cell decodes to its tuple, a `beq`, and the displacement taken from the line's own address gives the target. -/
theorem assembledBranchReachesItsLabel : Obligations.AssembledBranchReachesItsLabel := by
  intro t label a0 a1 address
  refine ⟨fun k => by rw [fields_beq, displacement_num]; rfl, fun name target hfind => ?_⟩
  refine ⟨⟨4, a0, a1, branchDisplacement target address⟩, ?_, rfl, fun w hw => ?_⟩
  · rw [fields_beq, displacement_of_find address hfind]
    rfl
  obtain ⟨hbounds, rfl⟩ := Fields.encode_eq_some_iff.1 hw
  obtain ⟨i, hdecode, hfields⟩ := decode_pack hbounds
  obtain ⟨r0, r1, rfl, h0, h1⟩ := eq_beq_of_fields hfields
  refine ⟨r0, r1, hdecode, h0, h1, fun s hpc heq => ⟨_, Machine.exec_beq .., ?_⟩⟩
  simp only [heq, if_true, hpc]
  exact add_branchDisplacement target address

/-! ## The layout of the linked program -/

theorem assembleCode_length {t : Symbols} {base : Nat} {ls : List CodeLine} {rs : List ResolvedLine}
    (h : assembleCode t base ls = some rs) : rs.length = ls.length := by
  induction ls generalizing base rs with
  | nil => cases h; rfl
  | cons l ls ih =>
    unfold assembleCode at h
    split at h
    next r rs' _ hrest => cases h; simp [ih hrest]
    next => cases h

theorem assembleData_length {t : Symbols} {ls : List DataLine} {rs : List ResolvedLine}
    (h : assembleData t ls = some rs) : rs.length = ls.length := by
  induction ls generalizing rs with
  | nil => cases h; rfl
  | cons l ls ih =>
    unfold assembleData at h
    split at h
    next r rs' _ hrest => cases h; simp [ih hrest]
    next => cases h

/-- Linking gives one resolved line for each code line of the modules (R88). -/
theorem linkCode_length {codeBase dataBase : Nat} {ms : List Module} {rs : List ResolvedLine}
    (h : linkCode codeBase dataBase ms = some rs) : rs.length = codeLines ms := by
  induction ms generalizing codeBase dataBase rs with
  | nil => cases h; rfl
  | cons m ms ih =>
    unfold linkCode at h
    split at h
    next rs' rest hcode hrest => cases h; simp [codeLines, assembleCode_length hcode, ih hrest]
    next => cases h

/-- Linking gives one resolved line for each `.fill` line of the modules (R88). -/
theorem linkData_length {codeBase dataBase : Nat} {ms : List Module} {rs : List ResolvedLine}
    (h : linkData codeBase dataBase ms = some rs) : rs.length = fillLines ms := by
  induction ms generalizing codeBase dataBase rs with
  | nil => cases h; rfl
  | cons m ms ih =>
    unfold linkData at h
    split at h
    next rs' rest hdata hrest => cases h; simp [fillLines, assembleData_length hdata, ih hrest]
    next => cases h

/-- A linked program is the code lines, the data lines and the `Stack` line, where neither part is refused (R88, R89). -/
theorem link_eq_some_iff {ms : List Module} {ls : List ResolvedLine} : link ms = some ls ↔
    ∃ code data, linkCode 0 (codeLines ms) ms = some code ∧ linkData 0 (codeLines ms) ms = some data ∧
      ls = code ++ data ++ [stackLine] := by
  unfold link
  cases linkCode 0 (codeLines ms) ms <;> cases linkData 0 (codeLines ms) ms <;> simp [eq_comm]

/-- Settles O36: each part has a line for each source line, and the image is the resolved program's cells. -/
theorem imageIsCodeThenDataThenStack : Obligations.ImageIsCodeThenDataThenStack := by
  intro ms ls h
  obtain ⟨code, data, hcode, hdata, rfl⟩ := link_eq_some_iff.1 h
  have hcodeLen := linkCode_length hcode
  have hdataLen := linkData_length hdata
  refine ⟨⟨code, data, hcode, hdata, rfl, hcodeLen, hdataLen⟩, _, by rw [image, h]; rfl, ?_, ?_, fun k => List.getElem?_map⟩
  · simp [hcodeLen, hdataLen, Nat.add_assoc]
  · simp [stackLine]

end Sys2Proof.Assembler
end

section
/-! PROOFS. The execution cycle: a step phase by phase, the two ways it can end, control transfer, what leaves Halted, and `run` as the
repeated step (R90 to R97, R122, R130, R146, R159, R171). -/

namespace Sys2Proof.Machine

/-! ## A step, phase by phase -/

/-- At an invalid pc the step faults at fetch (R91, R144). -/
theorem step_of_not_validAddr {s : State} (hrun : s.halted = false) (h : ¬ s.ValidAddr (s32 s.pc)) :
    step s = .next (s.raise .fetchAddressInvalid) := by
  have hfetch : s.fetch = .error .fetchAddressInvalid := if_neg h
  exact step_of_fetchDecode_error hrun (by simp [State.fetchDecode, hfetch])

/-- At a valid pc a cell that does not decode faults at decode (R92). -/
theorem step_of_decode_error {s : State} {d : DecodeFault} (hrun : s.halted = false) (h : s.ValidAddr (s32 s.pc))
    (hdec : decode (s.memRead (s32 s.pc).toNat) = .error d) : step s = .next (s.raise (causeOfDecodeFault d)) :=
  step_of_fetchDecode_error hrun (by simp [State.fetchDecode, fetch_of_valid h, hdec])

/-- At a valid pc a cell that decodes is executed (R93). -/
theorem step_of_decode_ok {s : State} {i : Instr} (hrun : s.halted = false) (h : s.ValidAddr (s32 s.pc))
    (hdec : decode (s.memRead (s32 s.pc).toNat) = .ok i) : step s = exec i s :=
  step_of_fetchDecode_ok hrun (fetchDecode_of_fetch (fetch_of_valid h) hdec)

/-- Settles O17: one lemma for each phase in which the step can end. -/
theorem stepRunsTheDecodedInstruction : Obligations.StepRunsTheDecodedInstruction := fun _ =>
  ⟨step_of_halted, step_of_not_validAddr, fun hrun hvalid =>
    ⟨step_of_decode_error hrun hvalid, step_of_decode_error hrun hvalid, fun _ => step_of_decode_ok hrun hvalid⟩⟩

/-- Settles O14: `halt` sets the flag and advances, and a step request finds the flag set. -/
theorem haltStopsOnePastItself : Obligations.HaltStopsOnePastItself := by
  refine ⟨by decide, fun w hopr => ⟨_, _, _, decode_halt ((oprOf_eq w).trans hopr)⟩, fun a0 a1 a2 s => ?_⟩
  exact ⟨_, exec_halt a0 a1 a2 s, rfl, rfl, nextPc_eq s.pc, fun r => rfl, ⟨fun a => rfl, rfl, rfl⟩, step_of_halted rfl⟩

/-! ## Completion or one fault -/

/-- An instruction completes with the fault status as it was, or enters a fault (R95). -/
theorem exec_completes_or_raises {i : Instr} {s t : State} (h : exec i s = .next t) : t.fault = s.fault ∨ ∃ c, t = s.raise c := by
  rcases exec_effect h with hraise | ⟨a0, a1, a2, -, rfl⟩ | ⟨a0, a1, d, -, -, rfl⟩ | ⟨x, pc, rfl⟩
  · exact .inr hraise
  · exact .inl rfl
  · exact .inl (memWrite_fault ..)
  · exact .inl rfl

/-- Settles O18: a step of a running machine enters a fault of fetch or decode, or executes, which completes or enters a fault. -/
theorem stepIsAtomicAndNeverStuck : Obligations.StepIsAtomicAndNeverStuck := by
  intro s
  obtain ⟨t, ht⟩ := step_total s
  refine ⟨t, ht, fun hrun => ?_⟩
  rcases step_inversion ht with ⟨hhalted, -⟩ | ⟨-, hfault⟩ | ⟨-, i, hfd, hexec⟩
  · rw [hrun] at hhalted
    cases hhalted
  · obtain ⟨c, -, ht⟩ := hfault
    exact .inr ⟨c, ht⟩
  · exact (exec_completes_or_raises hexec).imp_left fun hfault => ⟨i, hfd, hexec, hfault⟩

/-! ## Control transfer -/

/-- A data access that raises no fault leaves the pc where its effect does. -/
theorem accessing_pc {s : State} {ea : Int} {f : Nat → State} {pc : Word} (heffect : ∀ a, (f a).pc = pc)
    (hfault : (s.accessing ea f).fault = none) : (s.accessing ea f).pc = pc := by
  rcases accessing_cases s ea f with ⟨-, heq⟩ | ⟨-, heq⟩
  · rw [heq, heffect]
  · rw [heq] at hfault
    cases hfault

/-- An instruction that raises no fault leaves the pc one past itself, or it is a `jalr` or a taken `beq` (R94, R122). -/
theorem exec_pc {i : Instr} {s t : State} (h : exec i s = .next t) (hfault : t.fault = none) :
    t.pc = s.pc + 1 ∨ (∃ a0 a1 a2, i = .jalr a0 a1 a2) ∨ ∃ a0 a1 a2, i = .beq a0 a1 a2 ∧ s.readReg a0 = s.readReg a1 := by
  cases i with
  | add | nor | halt | noop =>
    cases h
    exact .inl (nextPc_eq s.pc)
  | lw a0 a1 d =>
    rw [exec_lw] at h
    cases h
    exact .inl (accessing_pc (fun a => nextPc_eq s.pc) hfault)
  | sw a0 a1 d =>
    rw [exec_sw] at h
    cases h
    refine .inl (accessing_pc (fun a => ?_) hfault)
    rw [advance_pc, memWrite_pc, nextPc_eq]
  | jalr a0 a1 k => exact .inr (.inl ⟨a0, a1, k, rfl⟩)
  | beq a0 a1 d =>
    by_cases htaken : s.readReg a0 = s.readReg a1
    · exact .inr (.inr ⟨a0, a1, d, rfl, htaken⟩)
    · rw [exec_beq, if_neg htaken] at h
      cases h
      exact .inl rfl

/-- Settles O21: the pc by the instruction, and the next step's fetch at an invalid pc. -/
theorem onlyBeqAndJalrTransferControl : Obligations.OnlyBeqAndJalrTransferControl := fun _ _ _ _ h hfault =>
  ⟨(exec_pc h hfault).resolve_left, step_of_not_validAddr⟩

/-! ## Leaving Halted -/

/-- A halted machine answers any number of step requests with its unchanged state (R90; log 4). -/
theorem steps_of_halted {s : State} (h : s.halted = true) (k : Nat) : State.steps k s = .next s := by
  induction k with
  | zero => rfl
  | succ k ih => rw [steps_succ (step_of_halted h), ih]

/-- No step clears a fault status (R150). -/
theorem step_fault_ne_none {s t : State} (h : step s = .next t) (hfault : s.fault ≠ none) : t.fault ≠ none := by
  rcases step_inversion h with ⟨-, rfl⟩ | ⟨-, c, -, rfl⟩ | ⟨-, i, -, hexec⟩
  · exact hfault
  · exact Option.some_ne_none c
  · rcases exec_completes_or_raises hexec with heq | ⟨c, rfl⟩
    · rwa [heq]
    · exact Option.some_ne_none c

/-- No run clears a fault status. -/
theorem steps_fault_ne_none (k : Nat) (s t : State) (hfault : s.fault ≠ none) (h : State.steps k s = .next t) : t.fault ≠ none :=
  steps_induction (R := fun s t => s.fault ≠ none → t.fault ≠ none) (fun _ => id)
    (fun _ _ _ hstep hrest hs => hrest (step_fault_ne_none hstep hs)) k s t h hfault

/-- `load` keeps the halt flag and the fault status (log 5). -/
theorem load_sameStatus {s l : State} {image : List Word} (h : s.load image = some l) : s.SameStatus l := by
  rcases Nat.lt_or_ge s.config.memLimit image.length with hlong | hle
  · rw [load_eq_none hlong] at h
    cases h
  · rw [load_of_le hle] at h
    cases h
    exact ⟨rfl, rfl⟩

/-- Settles O27: steps keep Halted and the fault, preset and load write neither, and reset is a function of the parameters alone. -/
theorem onlyResetLeavesHalted : Obligations.OnlyResetLeavesHalted :=
  ⟨fun k _ h => steps_of_halted h k, steps_fault_ne_none, fun _ _ => ⟨rfl, rfl⟩, fun _ _ _ => load_sameStatus,
    fun _ => ⟨rfl, rfl⟩, fun _ _ => congrArg State.resetWith⟩

/-! ## The run -/

/-- A run is one requested step and the rest of the run, from a halted state too (R90, R96). -/
theorem run_succ {s u : State} (h : step s = .next u) (n : Nat) : State.run (n + 1) s = State.run n u := by
  cases hrun : s.halted with
  | true =>
    rw [step_of_halted hrun] at h
    cases h
    rw [run_of_halted hrun, run_of_halted hrun]
  | false => simp [State.run, hrun, h]

/-- With fuel `n` a run ends where `n` requested steps end, if that state is halted (R96, R159). -/
theorem run_eq_some_iff (n : Nat) (s t : State) : State.run n s = some t ↔ State.steps n s = .next t ∧ t.halted = true := by
  induction n generalizing s with
  | zero =>
    simp only [State.run, Option.ite_none_right_eq_some, Option.some.injEq, steps_zero, Host.Outcome.next.injEq]
    constructor
    · rintro ⟨hhalted, rfl⟩
      exact ⟨rfl, hhalted⟩
    · rintro ⟨rfl, hhalted⟩
      exact ⟨hhalted, rfl⟩
  | succ n ih =>
    obtain ⟨u, hu⟩ := step_total s
    rw [run_succ hu, steps_succ hu, ih]

/-- More fuel never changes the end of a run (log 10). -/
theorem run_mono {n m : Nat} {s t : State} (hle : n ≤ m) (h : State.run n s = some t) : State.run m s = some t := by
  induction n generalizing s m with
  | zero =>
    obtain ⟨hzero, hhalted⟩ := (run_eq_some_iff 0 s t).1 h
    cases hzero
    exact run_of_halted hhalted m
  | succ n ih =>
    obtain ⟨m, rfl⟩ : ∃ k, m = k + 1 := Nat.exists_eq_add_one.2 (by omega)
    obtain ⟨u, hu⟩ := step_total s
    rw [run_succ hu] at h ⊢
    exact ih (Nat.le_of_succ_le_succ hle) h

/-- Settles O31: by induction on the fuel, one requested step at a time. -/
theorem runIsTheRepeatedStep : Obligations.RunIsTheRepeatedStep :=
  ⟨run_eq_some_iff, fun _ _ _ _ => run_mono⟩

end Sys2Proof.Machine
end

section
/-! PROOFS. The arithmetic and logic instructions: what `add` and `nor` share (the cell of three register fields, the frame of a register
write, the fault at decode), and the result of each (R60, R65, R70, R100, R101). -/

namespace Sys2Proof.Machine

/-! ## What the two instructions share -/

/-- The cell of an opcode with three register fields, as the sum of the fields at their places (R60, R65). -/
theorem u32_pack_registers {o : Nat} (ho : o < 8) (a0 a1 a2 : RegIdx) :
    u32 (Fields.pack ⟨o, a0.val, a1.val, a2.val⟩) = o * 2 ^ 23 + a0.val * 2 ^ 19 + a1.val * 2 ^ 16 + a2.val := by
  rw [pack_toNat ho a0.isLt a1.isLt]
  omega

/-- A register write and the increment leave every other register, the status and memory as they were (R9, R94). -/
theorem writeReg_advance_frame (s : State) (d : RegIdx) (v : Word) :
    s.SameRegsExcept d (s.writeReg d v).advance ∧ (s.writeReg d v).advance.pc = s.pc + 1 ∧
      s.SameStatus (s.writeReg d v).advance ∧ s.SameMemory (s.writeReg d v).advance :=
  ⟨fun _ hr => readReg_writeReg_of_ne s v hr, nextPc_eq s.pc, ⟨rfl, rfl⟩, memRead_writeReg s d v, rfl, rfl⟩

/-- At a valid pc, an opcode 0 or 1 with a third field above 7 faults at decode (R70, R143). -/
theorem step_of_destination_out_of_range {w : Word} {s : State} (hopr : u32 w / 2 ^ 23 ≤ 1) (hraw : 7 < u32 w % 2 ^ 16)
    (hrun : s.halted = false) (hvalid : s.ValidAddr (s32 s.pc)) (hcell : s.memRead (s32 s.pc).toNat = w) :
    step s = .next (s.raise .fieldOutOfRange) := by
  have hdec : decode w = .error .fieldOutOfRange := decode_eq_fieldOutOfRange_iff.2 ⟨(oprOf_eq w).trans_le hopr, hraw⟩
  exact step_of_decode_error hrun hvalid (hcell ▸ hdec)

/-! ## The results -/

/-- Bit `k` of a `nor` is 1 exactly when bit `k` of both sources is 0 (R101). -/
theorem getLsbD_aluNor (u v : Word) {k : Nat} (hk : k < 32) :
    (aluNor u v).getLsbD k = true ↔ u.getLsbD k = false ∧ v.getLsbD k = false := by
  simp [aluNor, hk]

/-- Settles O8: the 32-bit sum is the exact sum wrapped, and writing it and advancing is all that `add` does. -/
theorem addWritesTheWrappedSum : Obligations.AddWritesTheWrappedSum := by
  refine ⟨fun a0 a1 a2 s => ⟨u32_pack_registers (o := 0) (by decide) a0 a1 a2, decode_encode rfl, _, exec_add a0 a1 a2 s, ?_,
    writeReg_advance_frame ..⟩, fun w s hopr => step_of_destination_out_of_range (hopr.trans_le (by decide))⟩
  rw [readReg_advance, readReg_writeReg_same]
  exact BitVec.toInt_add ..

/-- Settles O9: the bits of the value written; the frame, the encoding and the fault at decode are those of `add`. -/
theorem norIsBitwiseOverThirtyTwoBits : Obligations.NorIsBitwiseOverThirtyTwoBits := by
  refine ⟨fun a0 a1 a2 s => ⟨u32_pack_registers (o := 1) (by decide) a0 a1 a2, decode_encode rfl, _, exec_nor a0 a1 a2 s,
    fun k hk => ?_, writeReg_advance_frame ..⟩, fun w s hopr => step_of_destination_out_of_range hopr.le⟩
  rw [readReg_advance, readReg_writeReg_same]
  exact getLsbD_aluNor _ _ hk

end Sys2Proof.Machine
end

section
/-! PROOFS. The load and store instructions: the cell of two registers and a displacement, a store at an exact address, and the result of
`lw` and of `sw` (R44, R45, R56, R60, R65, R67, R110, R111). -/

namespace Sys2Proof.Machine

/-! ## The cell of an instruction with a displacement -/

/-- An instruction with two registers and a displacement in bounds has the sum of its fields at their places as its cell, which decodes
back (R60, R65, R67). -/
theorem encode_displacement {i : Instr} {o : Nat} {a0 a1 : RegIdx} {d : Int} (ho : o < 8) (hfields : i.fields = ⟨o, a0.val, a1.val, d⟩)
    (hwf : i.wellFormed = dispInBounds d) (hlo : -32768 ≤ d) (hhi : d ≤ 32767) :
    u32 (encode i) = o * 2 ^ 23 + a0.val * 2 ^ 19 + a1.val * 2 ^ 16 + (d % 2 ^ 16).toNat ∧ decode (encode i) = .ok i := by
  refine ⟨?_, decode_encode ?_⟩
  · rw [encode, hfields, pack_toNat ho a0.isLt a1.isLt]
  · simp [hwf, dispInBounds, hlo, hhi]

/-! ## Accesses at a valid address -/

/-- A load from a valid address writes the cell there to the destination and advances (R110). -/
theorem exec_lw_of_valid {s : State} {a0 : RegIdx} {d : Int} (a1 : RegIdx)
    (h : s.ValidAddr (effectiveAddress (s.readReg a0) d)) : exec (.lw a0 a1 d) s =
      .next (s.writeReg a1 (s.memRead (effectiveAddress (s.readReg a0) d).toNat)).advance := by
  rw [exec_lw, accessing_of_valid h]

/-- A memory write and the increment leave the parameters, the registers and the status as they were (R45, R94). -/
theorem memWrite_advance_frame (s : State) (a : Nat) (v : Word) :
    (s.memWrite a v).advance.config = s.config ∧ s.SameRegs (s.memWrite a v).advance ∧
      (s.memWrite a v).advance.pc = s.pc + 1 ∧ s.SameStatus (s.memWrite a v).advance := by
  refine ⟨memWrite_config .., fun r => readReg_memWrite s r v a, ?_, memWrite_halted .., memWrite_fault ..⟩
  rw [advance_pc, memWrite_pc, nextPc_eq]

section
variable (s : State) {ea : Int} (v : Word)

/-- A write at an exact address leaves every other cell as it was (R45). -/
theorem memRead_memWrite_toNat_of_ne {a : Nat} (hea : 0 ≤ ea) (ha : (a : Int) ≠ ea) :
    (s.memWrite ea.toNat v).memRead a = s.memRead a := by
  rw [memRead_memWrite, if_neg (by omega)]

/-- A write beyond both regions grows the stack region just as far as the address written (R45). -/
theorem memWrite_toNat_stackLen_of_beyond (h : (s.codeLen + s.stackLen : Int) ≤ ea) :
    ((s.memWrite ea.toNat v).stackLen : Int) = ea - s.codeLen + 1 := by
  rw [memWrite_stackLen, if_pos (by omega)]
  omega

/-- A write inside the two regions leaves the stack length as it was (R45). -/
theorem memWrite_toNat_stackLen_of_inside (hea : 0 ≤ ea) (h : ea < (s.codeLen + s.stackLen : Int)) :
    (s.memWrite ea.toNat v).stackLen = s.stackLen := by
  rw [memWrite_stackLen, if_neg (by omega)]

end

/-! ## The results -/

/-- Settles O10: at a valid address the load is a register write of the cell there, which beyond both regions reads 0. -/
theorem lwLoadsTheAddressedCell : Obligations.LwLoadsTheAddressedCell := by
  intro a0 a1 a2 s ea
  refine ⟨encode_displacement (o := 2) (by decide) rfl rfl, fun hvalid => ?_, exec_lw_of_not_valid a1⟩
  have hloaded : (s.writeReg a1 (s.memRead ea.toNat)).advance.readReg a1 = s.memRead ea.toNat := readReg_writeReg_same ..
  refine ⟨_, exec_lw_of_valid a1 hvalid, hloaded, fun hbeyond => ?_, writeReg_advance_frame ..⟩
  exact hloaded.trans (memRead_beyond (by omega))

/-- Settles O11: at a valid address the store is a memory write, which changes the one cell and grows the stack region up to it. -/
theorem swStoresOneCellAndGrowsTheStack : Obligations.SwStoresOneCellAndGrowsTheStack := by
  intro a0 a1 a2 s ea
  refine ⟨encode_displacement (o := 3) (by decide) rfl rfl, fun hvalid => ?_, exec_sw_of_not_valid a1⟩
  have hea : 0 ≤ ea := hvalid.1
  have hstored : (s.memWrite ea.toNat (s.readReg a1)).memRead ea.toNat = s.readReg a1 := by simp [memRead_memWrite]
  have hother (a : Nat) (ha : (a : Int) ≠ ea) : (s.memWrite ea.toNat (s.readReg a1)).memRead a = s.memRead a :=
    memRead_memWrite_toNat_of_ne s _ hea ha
  exact ⟨_, exec_sw_of_valid a1 hvalid, hstored, hother, fun a hbeyond ha => (hother a ha).trans (memRead_beyond hbeyond),
    memWrite_toNat_stackLen_of_beyond s _, memWrite_toNat_stackLen_of_inside s _ hea, memWrite_advance_frame ..⟩

end Sys2Proof.Machine
end

section
/-! PROOFS. The control transfer instructions: the target of a branch, the link write, and the result of `beq` and
of `jalr` (R9, R25, R60, R65, R67, R120, R121, R122). -/

namespace Sys2Proof.Machine

/-! ## The target of a branch -/

/-- The next instruction's address, as a signed number (R25). -/
theorem s32_pc_add_one (pc : Word) : s32 (pc + 1) = (s32 pc + 1).bmod (2 ^ 32) := by
  rw [← nextPc_eq]
  exact BitVec.toInt_ofInt ..

/-- The target of a taken branch, as a signed number: the two additions wrap once (R8, R120). -/
theorem s32_branch_target (pc : Word) (d : Int) : s32 (pc + 1 + BitVec.ofInt 32 d) = (s32 pc + 1 + d).bmod (2 ^ 32) := by
  have hwrap : wrap32 (s32 pc + 1 + d) = pc + 1 + BitVec.ofInt 32 d := by
    rw [← nextPc_eq]
    exact BitVec.ofInt_add ..
  rw [← hwrap]
  exact BitVec.toInt_ofInt ..

/-! ## The link write of a `jalr` and its cell -/

/-- The link write leaves every other register as it was (R9, R121). -/
theorem readReg_link_of_ne (s : State) {a0 a1 : RegIdx} (h : a0 ≠ a1) : (s.link a1).readReg a0 = s.readReg a0 :=
  readReg_writeReg_of_ne s _ h

/-- The link register holds the next instruction's address (R121). -/
theorem readReg_link_same (s : State) (i : RegIdx) : (s.link i).readReg i = s.pc + 1 := by
  rw [link_eq_writeReg, readReg_writeReg_same]

/-- The unused third field of a `jalr` is 0 in the Assembler's cell, so the sum has no fourth term (R60, R65, R66). -/
theorem u32_encode_jalr (a0 a1 : RegIdx) : u32 (encode (.jalr a0 a1 0)) = 5 * 2 ^ 23 + a0.val * 2 ^ 19 + a1.val * 2 ^ 16 :=
  pack_toNat (o := 5) (by decide) a0.isLt a1.isLt

/-! ## The results -/

/-- Settles O12: the instruction assigns the pc alone, and the next step fetches there. -/
theorem beqBranchesOnEqualPatterns : Obligations.BeqBranchesOnEqualPatterns := by
  intro a0 a1 a2 s
  refine ⟨encode_displacement (o := 4) (by decide) rfl rfl, _, exec_beq a0 a1 a2 s, fun htaken => ?_, fun hnot => ?_,
    fun _ => rfl, ⟨rfl, rfl⟩, ⟨fun _ => rfl, rfl, rfl⟩, fun hrun hbad => step_of_not_validAddr hrun hbad⟩
  · simp only [if_pos htaken]
    exact s32_branch_target s.pc a2
  · simp only [if_neg hnot]
    exact s32_pc_add_one s.pc

/-- Settles O13: the instruction is the link write and then the pc, read from the registers after it; the third field is not used. -/
theorem jalrLinksThenJumps : Obligations.JalrLinksThenJumps := by
  intro a0 a1 a2 s
  refine ⟨u32_encode_jalr a0 a1, fun ha2 => decode_encode (decide_eq_true ha2), _, exec_jalr a0 a1 a2 s, exec_jalr a0 a1 0 s,
    readReg_link_same s a1, fun _ => readReg_link_of_ne s, readReg_link_of_ne s, fun hsame => ?_, ⟨rfl, rfl⟩,
    ⟨memRead_link s a1, rfl, rfl⟩, fun hrun hbad => step_of_not_validAddr hrun hbad⟩
  subst hsame
  exact readReg_link_same s a0

end Sys2Proof.Machine
end

section
/-! PROOFS. The system instructions: what `noop` leaves, and how a step that stops a running machine tells a `halt` from a fault
(R130, R131, R133, R141, R146). -/

namespace Sys2Proof.Machine

/-! ## `noop` -/

/-- Settles O15: `noop` is the increment alone. -/
theorem noopOnlyAdvances : Obligations.NoopOnlyAdvances := by
  refine ⟨by decide, decode_data_register 0, fun w hopr => ⟨_, _, _, decode_noop ((oprOf_eq w).trans hopr)⟩, fun a0 a1 a2 s => ?_⟩
  exact ⟨_, exec_noop a0 a1 a2 s, nextPc_eq s.pc, fun _ => rfl, ⟨rfl, rfl⟩, fun _ => rfl, rfl, rfl⟩

/-! ## A `halt` and a fault -/

/-- The fault status's code is 0 exactly with no fault (R27, R141). -/
theorem faultCode_eq_zero_iff {s : State} : s.faultCode = 0 ↔ s.fault = none := by
  cases h : s.fault with
  | none => simp [State.faultCode, h]
  | some c => simpa [State.faultCode, h] using c.code_ne_zero

/-- A step of a running machine that executes a `halt` enters no fault (R130). -/
theorem step_halt_ne_raise {s : State} (hrun : s.Running) {a0 a1 : RegIdx} {a2 : Nat} (hfd : s.fetchDecode = .ok (.halt a0 a1 a2))
    (c : FaultCause) : step s ≠ .next (s.raise c) := by
  obtain ⟨hhalted, hnone⟩ := hrun
  rw [step_of_fetchDecode_ok hhalted hfd, exec_halt]
  intro heq
  have hfault : s.fault = some c := congrArg State.fault (Host.Outcome.next.inj heq)
  rw [hnone] at hfault
  cases hfault

/-- Settles O20: a running machine's step that stops it is a `halt`, which leaves the fault status and advances, or a fault's entry, which
sets the fault status and leaves the pc. -/
theorem haltAndFaultAreTold : Obligations.HaltAndFaultAreTold := by
  intro s t hrun hstep hhalted
  rcases step_of_running hrun hstep with ⟨hnot, -⟩ | ⟨a0, a1, a2, hfd, rfl⟩ | ⟨c, rfl⟩
  · rw [hhalted] at hnot
    cases hnot
  · obtain ⟨-, hnone⟩ := hrun
    exact .inl ⟨faultCode_eq_zero_iff.2 hnone, nextPc_eq s.pc, a0, a1, a2, hfd⟩
  · exact .inr ⟨c.code_ne_zero, rfl, fun ⟨_, _, _, hfd⟩ => step_halt_ne_raise hrun hfd c hstep⟩

end Sys2Proof.Machine
end

section
/-! PROOFS. Faults: the condition of each cause, that a state meets at most one, and that a step of a running machine raises exactly the one
met (R140 to R147). -/

namespace Sys2Proof.Machine

/-! ## The fault status and its code -/

theorem FaultCause.code_toNat_le (c : FaultCause) : c.code.toNat ≤ 4 := by cases c <;> decide

/-- The codes 5 to 7 never appear (R141). -/
theorem faultCode_toNat_le (s : State) : s.faultCode.toNat ≤ 4 := by
  cases h : s.fault with
  | none => simp [State.faultCode, h]
  | some c => simpa [State.faultCode, h] using c.code_toNat_le

/-- The status code is a cause's code exactly where that cause is the fault status (R27). -/
theorem faultCode_eq_code_iff {s : State} {c : FaultCause} : s.faultCode = c.code ↔ s.fault = some c := by
  constructor
  · exact fun h => fault_eq_of_faultCode_eq (t := s.raise c) h
  · exact fun h => by simp [State.faultCode, h]

/-! ## The fault of a data access -/

/-- The instruction is a load or a store whose exact effective address is invalid (R145). -/
def State.AccessFaults (s : State) : Instr → Prop
  | .lw a0 _ d | .sw a0 _ d => ¬ s.ValidAddr (effectiveAddress (s.readReg a0) d)
  | _ => False

/-- A data access keeps the fault status where its effect does, or enters the fault at an invalid address. -/
theorem accessing_fault_cases {s : State} {ea : Int} {f : Nat → State} (heffect : ∀ a, (f a).fault = s.fault) :
    (s.accessing ea f).fault = s.fault ∨ (¬ s.ValidAddr ea ∧ s.accessing ea f = s.raise .dataAddressInvalid) := by
  rcases accessing_cases s ea f with ⟨-, heq⟩ | hbad
  · exact .inl (by rw [heq, heffect])
  · exact .inr hbad

/-- An instruction leaves the fault status as it was, or enters the fault of its data access (R145). -/
theorem exec_fault_cases {i : Instr} {s t : State} (h : exec i s = .next t) :
    t.fault = s.fault ∨ (s.AccessFaults i ∧ t = s.raise .dataAddressInvalid) := by
  cases i with
  | lw a0 a1 d =>
    rw [exec_lw] at h
    cases h
    exact accessing_fault_cases fun _ => rfl
  | sw a0 a1 d =>
    rw [exec_sw] at h
    cases h
    exact accessing_fault_cases fun _ => memWrite_fault ..
  | beq a0 a1 d =>
    rw [exec_beq] at h
    cases h
    exact .inl rfl
  | add | nor | jalr | halt | noop =>
    cases h
    exact .inl rfl

/-- The instruction of a cell can meet the fault for opcodes 2 and 3 only, at the address that the cell's fields give (R56, R63). -/
theorem accessFaults_iff_of_decode {w : Word} {i : Instr} (s : State) (h : decode w = .ok i) : s.AccessFaults i ↔
    (oprOf w = 2 ∨ oprOf w = 3) ∧ ¬ s.ValidAddr (effectiveAddress (s.readReg (a0Of w)) (sext16 (rawOf w))) := by
  rcases decode_cases w with ⟨-, hd⟩ | ⟨-, -, hd⟩ | ⟨ho, -, hd⟩ | ⟨ho, -, hd⟩ | ⟨ho, hd⟩ | ⟨ho, hd⟩ | ⟨ho, hd⟩ | ⟨ho, hd⟩ |
    ⟨ho, hd⟩ | ⟨ho, hd⟩ <;> rw [hd] at h <;> cases h <;> simp [State.AccessFaults, ho]

/-! ## The conditions of the four causes -/

/-- The cell at the pc. -/
def State.pcCell (s : State) : Word := s.memRead (s32 s.pc).toNat

/-- The condition under which a step of a running machine meets each cause, the earlier phases passed (R142 to R145, R147). -/
def State.MeetsFault (s : State) : FaultCause → Prop
  | .fetchAddressInvalid => ¬ s.ValidAddr (s32 s.pc)
  | .opcodeOutOfRange => s.ValidAddr (s32 s.pc) ∧ 7 < oprOf s.pcCell
  | .fieldOutOfRange => s.ValidAddr (s32 s.pc) ∧ oprOf s.pcCell ≤ 1 ∧ 7 < rawOf s.pcCell
  | .dataAddressInvalid => s.ValidAddr (s32 s.pc) ∧ (oprOf s.pcCell = 2 ∨ oprOf s.pcCell = 3) ∧
      ¬ s.ValidAddr (effectiveAddress (s.readReg (a0Of s.pcCell)) (sext16 (rawOf s.pcCell)))

/-- A cell that does not decode meets the cause of its decode fault (R142, R143). -/
theorem meetsFault_of_decode_error {s : State} {d : DecodeFault} (hpc : s.ValidAddr (s32 s.pc))
    (hdec : decode s.pcCell = .error d) : s.MeetsFault (causeOfDecodeFault d) := by
  cases d with
  | opcodeOutOfRange => exact ⟨hpc, decode_eq_opcodeOutOfRange_iff.1 hdec⟩
  | fieldOutOfRange => exact ⟨hpc, decode_eq_fieldOutOfRange_iff.1 hdec⟩

/-- A running machine that meets a fault enters it (R146): the phases of a step, in order. -/
theorem step_of_meetsFault {s : State} {c : FaultCause} (hrun : s.halted = false) (h : s.MeetsFault c) :
    step s = .next (s.raise c) := by
  cases c with
  | fetchAddressInvalid => exact step_of_not_validAddr hrun h
  | opcodeOutOfRange =>
    obtain ⟨hpc, hopr⟩ := h
    exact step_of_decode_error hrun hpc (decode_eq_opcodeOutOfRange_iff.2 hopr)
  | fieldOutOfRange =>
    obtain ⟨hpc, hfield⟩ := h
    exact step_of_decode_error hrun hpc (decode_eq_fieldOutOfRange_iff.2 hfield)
  | dataAddressInvalid =>
    obtain ⟨hpc, hopr | hopr, hbad⟩ := h
    · exact (step_of_decode_ok hrun hpc (decode_lw hopr)).trans (exec_lw_of_not_valid _ hbad)
    · exact (step_of_decode_ok hrun hpc (decode_sw hopr)).trans (exec_sw_of_not_valid _ hbad)

/-- A step of a running machine leaves the fault status as it was, or enters a fault whose condition is met. -/
theorem step_fault_cases {s t : State} (hrun : s.halted = false) (h : step s = .next t) :
    t.fault = s.fault ∨ ∃ c, s.MeetsFault c ∧ t = s.raise c := by
  rcases fetchDecode_cases s with ⟨hpc, -⟩ | ⟨hpc, d, hdec, -⟩ | ⟨hpc, i, hdec, -⟩
  · rw [step_of_not_validAddr hrun hpc] at h
    cases h
    exact .inr ⟨.fetchAddressInvalid, hpc, rfl⟩
  · rw [step_of_decode_error hrun hpc hdec] at h
    cases h
    exact .inr ⟨_, meetsFault_of_decode_error hpc hdec, rfl⟩
  · rw [step_of_decode_ok hrun hpc hdec] at h
    refine (exec_fault_cases h).imp_right fun ⟨haccess, heq⟩ => ⟨.dataAddressInvalid, ?_, heq⟩
    exact ⟨hpc, (accessFaults_iff_of_decode s hdec).1 haccess⟩

/-- A step of a running machine ends with a cause as its fault status exactly where that cause's condition is met (R147). -/
theorem step_fault_eq_some_iff {s t : State} (hrun : s.Running) (h : step s = .next t) (c : FaultCause) :
    t.fault = some c ↔ s.MeetsFault c := by
  obtain ⟨hhalted, hnone⟩ := hrun
  constructor
  · intro hc
    rcases step_fault_cases hhalted h with hsame | ⟨d, hd, rfl⟩
    · rw [hsame, hnone] at hc
      cases hc
    · cases hc
      exact hd
  · intro hc
    rw [step_of_meetsFault hhalted hc] at h
    cases h
    rfl

/-- Settles O19: each cause's condition is the one stated, in the fields of the cell at the pc, and a fault's entry writes the two status
values. -/
theorem faultCausesPriorityAndEntry : Obligations.FaultCausesPriorityAndEntry := by
  refine ⟨⟨rfl, rfl, rfl, rfl, fun s => ⟨faultCode_eq_zero_iff, faultCode_toNat_le s⟩⟩, ⟨rfl, rfl, rfl, rfl⟩,
    fun s t hrun h => ?_⟩
  have hcode (c : FaultCause) : t.faultCode = c.code ↔ s.MeetsFault c :=
    faultCode_eq_code_iff.trans (step_fault_eq_some_iff hrun h c)
  dsimp only
  rw [← a0Of_eq_slice, ← sext16_rawOf_eq_slice, ← oprOf_eq]
  refine ⟨hcode .fetchAddressInvalid, hcode .opcodeOutOfRange, (hcode .fieldOutOfRange).trans ?_, hcode .dataAddressInvalid,
    fun hfault => ?_⟩
  · rw [State.MeetsFault, rawOf, State.pcCell]
    omega
  · obtain ⟨hhalted, hnone⟩ := hrun
    rcases step_fault_cases hhalted h with hsame | ⟨c, -, rfl⟩
    · exact absurd (hsame.trans hnone) hfault
    · rfl

end Sys2Proof.Machine
end

section
/-! PROOFS. Reset: what it leaves in the registers, and that the image's words are all that memory then shows (R33, R44, R170, R171). -/

namespace Sys2Proof.Machine

@[simp] theorem readReg_hostReset (s : State) (r : RegIdx) : s.hostReset.readReg r = 0 := Vector.getElem_replicate _

/-- The stack region is empty after reset, so beyond both regions is from `N` up (R30, R44). -/
theorem memRead_hostReset_of_le {s : State} {a : Nat} (h : s.config.image.length ≤ a) : s.hostReset.memRead a = 0 :=
  memRead_beyond h

/-- Settles O26: the scalars are the reset values; memory is the placed image below `N`, and beyond both regions from `N` up. -/
theorem resetGivesTheStatedValues : Obligations.ResetGivesTheStatedValues := by
  intro s
  refine ⟨readReg_hostReset s, rfl, rfl, faultCode_eq_zero_iff.2 rfl, rfl, rfl, fun a h => ?below, fun a h => ?beyond⟩
  case below => exact memRead_of_mem_eq_ofCells (hostReset_mem s) h
  case beyond => exact memRead_hostReset_of_le h

end Sys2Proof.Machine
end
